-- ==== Sys2Proof/Word.lean ====
section
/-! DEFINITION. The word types of the two units: bytes, 32-bit registers, the 34-bit column counter, the type tag. -/

namespace Sys2Proof

/-- A byte: 8 bits, unsigned (00_scope.md R8). -/
abbrev Byte := BitVec 8

/-- A 32-bit unsigned register: WIDTH, HEIGHT, ROW, ERR_ROW, LEN, REM, ACC, STORED (10_state.md). -/
abbrev Word := BitVec 32

/-- The 34-bit unsigned column counter COL (10_state.md R25). -/
abbrev Column := BitVec 34

/-- The four bytes of a type tag in stream order, `b0` first (10_state.md R44, 30_encoding.md R96). -/
structure Tag where
  b0 : Byte
  b1 : Byte
  b2 : Byte
  b3 : Byte
  deriving DecidableEq, Repr

end Sys2Proof
end

