-- ==== Sys2Proof/Config.lean ====
section
/-! DEFINITION. What an implementation fixes (the OPEN parameters of 00_scope.md R5), the constants of R4, and the
model's free value. -/

namespace Sys2Proof.Config

/-- `BPP`, bytes per pixel: 3 channels of 8 bits (00_scope.md R4). -/
abbrev bpp : Nat := 3

/-- The row-stride `S = 3 * WIDTH`, exact, never wrapped at 32 bits (00_scope.md R4, 10_state.md R21). -/
def stride (width : Word) : Nat := bpp * width.toNat

/-- The three primitives a `CHECKSUM` supplies (41_integrity_check.md R164). `CHECKSUM` is an OPEN parameter
(00_scope.md R5). -/
structure Checksum where
  /-- `crc_init()`. -/
  init : Word
  /-- `crc_update(acc, x)`. -/
  update : Word → Byte → Word
  /-- `crc_final(acc)`. -/
  final : Word → Word

/-- The OPEN parameters a model takes as an argument (00_scope.md R5). `REGMAP` has no default and no rule uses it. -/
structure Params where
  /-- `MAXW`, the largest WIDTH that DF.START accepts. -/
  maxW : Word
  /-- `MAXH`, the largest HEIGHT that DF.START accepts. -/
  maxH : Word
  /-- `CHECKSUM`. -/
  checksum : Checksum

/-- The value the n-th read of an unspecified byte returns (42_host_operations.md R196, R201: "returns an unspecified
value"). It has no body: nothing is known of it (log entry 8). -/
opaque freeByte : Nat → Byte

end Sys2Proof.Config
end

