-- ==== Sys2Proof/Syntax.lean ====
section
/-! DEFINITION. The instructions: one constructor per row of spec/opcode_table.json, each with the operands its record
carries (30_encoding.md R90, R91, R96). -/

namespace Sys2Proof

/-- A row record of unit DF or a block record of unit IC (00_scope.md R7). -/
inductive Instr where
  /-- `ROW.NONE`, selector 0x00, with the filtered bytes `f` (40_defilter_rows.md R130). -/
  | rowNone (f : List Byte)
  /-- `ROW.SUB`, selector 0x01 (R131). -/
  | rowSub (f : List Byte)
  /-- `ROW.UP`, selector 0x02 (R132). -/
  | rowUp (f : List Byte)
  /-- `ROW.AVG`, selector 0x03 (R133). -/
  | rowAvg (f : List Byte)
  /-- `ROW.PAETH`, selector 0x04 (R134). -/
  | rowPaeth (f : List Byte)
  /-- `ROW.ILLEGAL_05`, selector 0x05 (R135). -/
  | rowIllegal05
  /-- `ROW.ILLEGAL_06_07`, with the selector's low bit. -/
  | rowIllegal0607 (low : BitVec 1)
  /-- `ROW.ILLEGAL_08_0F`, with the selector's low 3 bits. -/
  | rowIllegal080F (low : BitVec 3)
  /-- `ROW.ILLEGAL_10_1F`, with the selector's low 4 bits. -/
  | rowIllegal101F (low : BitVec 4)
  /-- `ROW.ILLEGAL_20_3F`, with the selector's low 5 bits. -/
  | rowIllegal203F (low : BitVec 5)
  /-- `ROW.ILLEGAL_40_7F`, with the selector's low 6 bits. -/
  | rowIllegal407F (low : BitVec 6)
  /-- `ROW.ILLEGAL_80_FF`, with the selector's low 7 bits. -/
  | rowIllegal80FF (low : BitVec 7)
  /-- `CHKBLK`: declared length, type tag, payload, stored checksum (41_integrity_check.md R169). -/
  | chkblk (length : Word) (tag : Tag) (payload : List Byte) (crc : Word)
  deriving DecidableEq, Repr

end Sys2Proof
end

