-- ==== Sys2Proof/WellFormed.lean ====
section
/-! DEFINITION. When an instruction term is a record of the spec's formats: its operand lengths fit (30_encoding.md R94,
R99, R107). -/

namespace Sys2Proof

/-- A `row.*` record has exactly `S` filtered bytes ("it is malformed if the number of bytes is not S", R107); an
illegal selector takes no operand (R135); a block's payload has the declared length (41_integrity_check.md R177). -/
def Instr.wellFormed (width : Word) : Instr → Bool
  | .rowNone f => f.length == Config.stride width
  | .rowSub f => f.length == Config.stride width
  | .rowUp f => f.length == Config.stride width
  | .rowAvg f => f.length == Config.stride width
  | .rowPaeth f => f.length == Config.stride width
  | .rowIllegal05 => true
  | .rowIllegal0607 _ => true
  | .rowIllegal080F _ => true
  | .rowIllegal101F _ => true
  | .rowIllegal203F _ => true
  | .rowIllegal407F _ => true
  | .rowIllegal80FF _ => true
  | .chkblk length _ payload _ => payload.length == length.toNat

end Sys2Proof
end

