-- ==== Sys2Proof/Decode.lean ====
section
/-! DEFINITION. The decoder, total on any bytes, and the encoder, both from the encodings of 30_encoding.md. -/

namespace Sys2Proof

/-- The two streams: a record is a `ROW` on DF's and a `BLK` on IC's (30_encoding.md R90). -/
inductive StreamUnit where
  | df
  | ic
  deriving DecidableEq, Repr

/-- Why bytes are no complete record. Any complete byte sequence decodes: no selector and no field value is left
without a row of the table (R104, R105). -/
inductive DecodeError where
  /-- No byte at all. -/
  | noBytes
  /-- A legal selector with fewer than `S` bytes behind it. -/
  | truncatedRow
  /-- Fewer than `12 + length` bytes of a block record. -/
  | truncatedBlock
  deriving DecidableEq, Repr

/-- `{b0, b1, b2, b3}_BE` (00_scope.md R8; 30_encoding.md R97, R98). -/
def wordBE (b0 b1 b2 b3 : Byte) : Word := b0 ++ b1 ++ b2 ++ b3

/-- The four bytes of a big-endian field, most significant first (20_memory.md R66). -/
def bytesBE (w : Word) : List Byte :=
  [w.extractLsb' 24 8, w.extractLsb' 16 8, w.extractLsb' 8 8, w.extractLsb' 0 8]

/-- The tag's bytes in stream order. -/
def tagBytes (t : Tag) : List Byte := [t.b0, t.b1, t.b2, t.b3]

/-- The opcode map's rows of format `ROW`: pattern and mask on the selector byte (30_encoding.md R104). -/
def rowTable : List (Byte × Byte) :=
  [(0x00, 0xFF), (0x01, 0xFF), (0x02, 0xFF), (0x03, 0xFF), (0x04, 0xFF), (0x05, 0xFF), (0x06, 0xFE), (0x08, 0xF8),
   (0x10, 0xF0), (0x20, 0xE0), (0x40, 0xC0), (0x80, 0x80)]

/-- A selector byte is one of the table's rows. -/
def rowMatches (sel : Byte) (row : Byte × Byte) : Bool := sel &&& row.2 == row.1

/-- The legal selectors are exactly 0 to 4 (00_scope.md R4); the whole byte is compared (30_encoding.md R92). -/
def selLegal (sel : Byte) : Bool := sel.toNat ≤ 4

/-- The operation a selector byte names (30_encoding.md R92, R104), with the filtered bytes `f` behind it. -/
def rowInstr (sel : Byte) (f : List Byte) : Instr :=
  if rowMatches sel (0x00, 0xFF) then .rowNone f
  else if rowMatches sel (0x01, 0xFF) then .rowSub f
  else if rowMatches sel (0x02, 0xFF) then .rowUp f
  else if rowMatches sel (0x03, 0xFF) then .rowAvg f
  else if rowMatches sel (0x04, 0xFF) then .rowPaeth f
  else if rowMatches sel (0x05, 0xFF) then .rowIllegal05
  else if rowMatches sel (0x06, 0xFE) then .rowIllegal0607 (sel.extractLsb' 0 1)
  else if rowMatches sel (0x08, 0xF8) then .rowIllegal080F (sel.extractLsb' 0 3)
  else if rowMatches sel (0x10, 0xF0) then .rowIllegal101F (sel.extractLsb' 0 4)
  else if rowMatches sel (0x20, 0xE0) then .rowIllegal203F (sel.extractLsb' 0 5)
  else if rowMatches sel (0x40, 0xC0) then .rowIllegal407F (sel.extractLsb' 0 6)
  else .rowIllegal80FF (sel.extractLsb' 0 7)

/-- Reads one `ROW` record: a legal selector takes `S` bytes (30_encoding.md R91, R94), an illegal one takes none
(40_defilter_rows.md R135). -/
def decodeRow (width : Word) : List Byte → Except DecodeError (Instr × List Byte)
  | [] => .error .noBytes
  | sel :: rest =>
    if selLegal sel then
      if rest.length < Config.stride width then .error .truncatedRow
      else .ok (rowInstr sel (rest.take (Config.stride width)), rest.drop (Config.stride width))
    else .ok (rowInstr sel [], rest)

/-- Reads the stored checksum that ends a `BLK` record (30_encoding.md R98). -/
def decodeCrc (length : Word) (tag : Tag) (payload : List Byte) : List Byte → Except DecodeError (Instr × List Byte)
  | c0 :: c1 :: c2 :: c3 :: rest => .ok (.chkblk length tag payload (wordBE c0 c1 c2 c3), rest)
  | _ => .error .truncatedBlock

/-- Reads one `BLK` record (30_encoding.md R96 to R99). -/
def decodeBlk : List Byte → Except DecodeError (Instr × List Byte)
  | [] => .error .noBytes
  | l0 :: l1 :: l2 :: l3 :: t0 :: t1 :: t2 :: t3 :: rest =>
    let length := wordBE l0 l1 l2 l3
    if rest.length < length.toNat then .error .truncatedBlock
    else decodeCrc length ⟨t0, t1, t2, t3⟩ (rest.take length.toNat) (rest.drop length.toNat)
  | _ => .error .truncatedBlock

/-- Reads the first record of a unit's stream; WIDTH is the only value outside the record that matters (R106). -/
def decode (u : StreamUnit) (width : Word) (bytes : List Byte) : Except DecodeError (Instr × List Byte) :=
  match u with
  | .df => decodeRow width bytes
  | .ic => decodeBlk bytes

/-- The bytes of a record in stream order (30_encoding.md R91, R92, R96, R107). -/
def encode : Instr → List Byte
  | .rowNone f => 0x00 :: f
  | .rowSub f => 0x01 :: f
  | .rowUp f => 0x02 :: f
  | .rowAvg f => 0x03 :: f
  | .rowPaeth f => 0x04 :: f
  | .rowIllegal05 => [0x05]
  | .rowIllegal0607 low => [0b0000011#7 ++ low]
  | .rowIllegal080F low => [0b00001#5 ++ low]
  | .rowIllegal101F low => [0b0001#4 ++ low]
  | .rowIllegal203F low => [0b001#3 ++ low]
  | .rowIllegal407F low => [0b01#2 ++ low]
  | .rowIllegal80FF low => [0b1#1 ++ low]
  | .chkblk length tag payload crc => bytesBE length ++ tagBytes tag ++ payload ++ bytesBE crc

/-- Which unit's stream a record belongs to. -/
def Instr.unit : Instr → StreamUnit
  | .chkblk _ _ _ _ => .ic
  | .rowNone _ => .df
  | .rowSub _ => .df
  | .rowUp _ => .df
  | .rowAvg _ => .df
  | .rowPaeth _ => .df
  | .rowIllegal05 => .df
  | .rowIllegal0607 _ => .df
  | .rowIllegal080F _ => .df
  | .rowIllegal101F _ => .df
  | .rowIllegal203F _ => .df
  | .rowIllegal407F _ => .df
  | .rowIllegal80FF _ => .df

/-- How many bytes the record takes (the opcode table's length_bytes; 30_encoding.md R94, R99). -/
def Instr.recordLength (width : Word) : Instr → Nat
  | .rowNone _ => 1 + Config.stride width
  | .rowSub _ => 1 + Config.stride width
  | .rowUp _ => 1 + Config.stride width
  | .rowAvg _ => 1 + Config.stride width
  | .rowPaeth _ => 1 + Config.stride width
  | .rowIllegal05 => 1
  | .rowIllegal0607 _ => 1
  | .rowIllegal080F _ => 1
  | .rowIllegal101F _ => 1
  | .rowIllegal203F _ => 1
  | .rowIllegal407F _ => 1
  | .rowIllegal80FF _ => 1
  | .chkblk length _ _ _ => 12 + length.toNat

/-- The low `n` bytes of a number, the least significant first. -/
def lowBytes : Nat → Nat → List Byte
  | 0, _ => []
  | n + 1, w => BitVec.ofNat 8 w :: lowBytes n (w / 256)

/-- Bytes, with zero bytes behind them up to length `n`. -/
def padTo (n : Nat) (bytes : List Byte) : List Byte := bytes ++ List.replicate (n - bytes.length) 0

/-- The bytes the table gives a word of `nbits` bits. -/
def tableByteCount (nbits : Nat) : Nat := (nbits + 7) / 8

/-- Whether a word of the opcode table is a `BLK` record: the `CHKBLK` row has no opcode bit (mask 0), so it is asked
for with no bits, or with the 96 bits and more of a whole record (log entry 14). -/
def tableUnit (nbits : Nat) : StreamUnit := if nbits = 0 ∨ 96 ≤ nbits then .ic else .df

/-- The smallest legal WIDTH whose row record holds the word's bytes (log entry 14): 1 for the table's one-byte rows. -/
def tableWidth (nbits : Nat) : Word := BitVec.ofNat 32 (max 1 ((tableByteCount nbits + 1) / 3))

/-- The declared length in a block's first four bytes. -/
def blockLength : List Byte → Nat
  | l0 :: l1 :: l2 :: l3 :: _ => (wordBE l0 l1 l2 l3).toNat
  | _ => 0

/-- The stream bytes of a table word: its bytes, then zero operand bytes up to the end of the record. -/
def tableRecord (nbits w : Nat) : List Byte :=
  match tableUnit nbits with
  | .df => padTo (1 + Config.stride (tableWidth nbits)) (lowBytes (tableByteCount nbits) w)
  | .ic =>
    let bytes := padTo 12 (lowBytes (tableByteCount nbits) w)
    padTo (12 + blockLength bytes) bytes

/-- The instruction the decoder reads from a word numbered as spec/opcode_table.json numbers it. -/
def decodeTableWord (nbits w : Nat) : Option Instr :=
  match decode (tableUnit nbits) (tableWidth nbits) (tableRecord nbits w) with
  | .ok (i, _) => some i
  | .error _ => none

end Sys2Proof
end

