-- ==== Sys2Proof/Machine/Checksum.lean ====
section
/-! DEFINITION. The checksum function: the default CRC-32 in its incremental form (41_integrity_check.md R163, R164), and
the parameters the machine runs with. -/

namespace Sys2Proof.Machine

/-- `crc_init()` of the default function (41_integrity_check.md R164). -/
def crcInit : Word := 0xFFFFFFFF

/-- One of the shift steps of R163, on the reflected polynomial. -/
def crcShift (acc : Word) : Word :=
  if acc.getLsbD 0 then (acc >>> 1) ^^^ 0xEDB88320 else acc >>> 1

/-- `n` shift steps. -/
def crcShifts : Nat → Word → Word
  | 0, acc => acc
  | n + 1, acc => crcShifts n (crcShift acc)

/-- `crc_update(acc, x)`: the 8 shift steps applied to `acc xor zext_32(x)` (R164). -/
def crcUpdate (acc : Word) (x : Byte) : Word := crcShifts 8 (acc ^^^ x.zeroExtend 32)

/-- `crc_final(acc)`: the final inversion (R164). -/
def crcFinal (acc : Word) : Word := acc ^^^ 0xFFFFFFFF

/-- The default `CHECKSUM` (R163). PRESUMED: the spec marks it as from general knowledge, not in its source
(log entry 3). -/
def crc32 : Config.Checksum := { init := crcInit, update := crcUpdate, final := crcFinal }

/-- The accumulator after a message, from a given start. -/
def absorb (C : Config.Checksum) (acc : Word) (m : List Byte) : Word := m.foldl C.update acc

/-- `CHECKSUM(m)` by the composition law of R164. -/
def checksum (C : Config.Checksum) (m : List Byte) : Word := C.final (absorb C C.init m)

/-- The parameters of this machine: every OPEN parameter at its default (00_scope.md R5; log entries 3, 4). -/
def params : Config.Params := { maxW := 0xFFFFFFFF, maxH := 0xFFFFFFFF, checksum := crc32 }

end Sys2Proof.Machine
end

