-- ==== Sys2Proof/Machine/State.lean ====
section
/-! DEFINITION. The state of the machine: unit DF (10_state.md R20), unit IC (R40), and what passes between them and the
host; the reasons a step can stop; the state after reset. -/

namespace Sys2Proof.Machine

/-- `STATE` of unit DF (10_state.md R23). -/
inductive DfPhase where
  | idle
  | select
  | data
  | done
  | fault
  deriving DecidableEq, Repr

/-- `PHASE` of unit IC (10_state.md R41). -/
inductive IcPhase where
  | len
  | tag
  | payload
  | crc
  | fault
  deriving DecidableEq, Repr

/-- `ERR_KIND` of either unit: no fault, or one of the source's seven kinds (60_exceptions.md R215, R223). -/
inductive ErrKind where
  | none
  | badMagic
  | truncatedInput
  | checksumMismatch
  | unsupportedVariant
  | invalidDimensions
  | invalidFilterSelector
  | decompressionError
  deriving DecidableEq, Repr

/-- A space of bytes: the written addresses, strictly rising, with their bytes. An address that is not listed has no
value: nothing has written it (10_state.md R50 "unspecified"; log entry 2). -/
abbrev Memory := List Host.Cell

/-- Unit DF (10_state.md R20), with the output space `DF.OUT` it writes (20_memory.md R62). -/
structure Df where
  /-- `STATE` (R23). -/
  state : DfPhase
  /-- `WIDTH` in pixels (R21). -/
  width : Word
  /-- `HEIGHT` in rows (R22). -/
  height : Word
  /-- `ROW`, the index of the row being decoded (R24). -/
  row : Word
  /-- `COL`, the index of the next filtered byte in the row (R25). -/
  col : Column
  /-- `SEL`, the selector of the current row (R27). -/
  sel : Byte
  /-- `PRIOR`, the previous row (R30). -/
  prior : Memory
  /-- `CUR`, the current row so far (R31). -/
  cur : Memory
  /-- `ERR_KIND` (R29). -/
  errKind : ErrKind
  /-- `ERR_ROW` (R29). -/
  errRow : Word
  /-- `ERR_VALUE` (R29). -/
  errValue : Byte
  /-- `DF.OUT`, address `y * S + i` (20_memory.md R62). -/
  out : Memory
  deriving DecidableEq, Repr

/-- Unit IC (10_state.md R40). -/
structure Ic where
  /-- `PHASE` (R41). -/
  phase : IcPhase
  /-- `CNT`, bytes already taken of the current 4-byte field (R41). -/
  cnt : BitVec 2
  /-- `LEN`, the declared payload length (R42). -/
  len : Word
  /-- `REM`, payload bytes still to come (R43). -/
  rem : Word
  /-- `TAG` (R44). -/
  tag : Tag
  /-- `ACC`, the checksum accumulator (R45). -/
  acc : Word
  /-- `STORED`, the stored checksum (R46). -/
  stored : Word
  /-- `ERR_KIND` (R47). -/
  errKind : ErrKind
  /-- `ERR_TAG` (R47). -/
  errTag : Tag
  deriving DecidableEq, Repr

/-- One host operation (42_host_operations.md R190). -/
inductive Token where
  | dfReset
  | dfStart (w h : Word)
  | dfPush (b : Byte)
  | dfEos
  | dfReadStatus
  | dfReadOut (addr : Nat)
  | icReset
  | icPush (x : Byte)
  | icEos
  | icReadStatus
  deriving DecidableEq, Repr

/-- The verdict event `BlockOK(tag, length)` (41_integrity_check.md R170). -/
structure Verdict where
  tag : Tag
  length : Word
  deriving DecidableEq, Repr

/-- What `DF.READ_STATUS` returns (42_host_operations.md R195), the flags of 10_state.md R28 among it. -/
structure DfStatus where
  state : DfPhase
  busy : Bool
  done : Bool
  fault : Bool
  width : Word
  height : Word
  row : Word
  col : Column
  errKind : ErrKind
  errRow : Word
  errValue : Byte
  deriving DecidableEq, Repr

/-- What `IC.READ_STATUS` returns (42_host_operations.md R200), the flags of 10_state.md R48 among it. -/
structure IcStatus where
  phase : IcPhase
  cnt : BitVec 2
  len : Word
  rem : Word
  tag : Tag
  errKind : ErrKind
  errTag : Tag
  fault : Bool
  midRecord : Bool
  deriving DecidableEq, Repr

/-- What a read token hands to the host. -/
inductive Reply where
  /-- The status of DF (R195). -/
  | dfStatus (v : DfStatus)
  /-- The byte `DF.OUT[addr]` (R196). -/
  | outByte (addr : Nat) (v : Byte)
  /-- The value is unspecified (R196, R201): `v` is a free value, never a byte of `DF.OUT` (log entry 8). -/
  | outUnspecified (addr : Nat) (v : Byte)
  /-- The status of IC (R200). -/
  | icStatus (v : IcStatus)
  deriving DecidableEq, Repr

/-- The host's side of the interface; no unit's state (log entries 5, 8, 13). -/
structure HostSide where
  /-- The tokens the host has still to deliver, the next one first. -/
  pending : List Token
  /-- The verdicts emitted so far, oldest first (00_scope.md R9 `emit`; R170). -/
  verdicts : List Verdict
  /-- The results of the read tokens so far, oldest first (R195, R196, R200). -/
  replies : List Reply
  /-- How many free values have been drawn: the model's own counter (log entry 8). -/
  freeCount : Nat
  deriving DecidableEq, Repr

/-- Two units that share nothing, and the host (00_scope.md R6). -/
structure State where
  df : Df
  ic : Ic
  host : HostSide
  deriving DecidableEq, Repr

/-- Why a step stops. None of these is a fault of the hardware: those are NEXT states with `STATE` or `PHASE` = FAULT
(60_exceptions.md R222). -/
inductive Fault where
  /-- The host has no token to deliver: the run has not ended and nothing is claimed about it (70_reset_and_hazards.md
  R266, 93_implementation_defined.md S10: stuck). Raised by `step`. Safe (log entry 7). -/
  | awaitingToken
  /-- The neighbor mux read an entry of `CUR` that nothing has written (10_state.md R50, R31; 93 S4: fault in the
  model). Raised by a data step, in no state a run reaches. Safe (log entry 2). -/
  | unwrittenCur (i : Nat)
  /-- The neighbor mux read an entry of `PRIOR` that nothing has written (10_state.md R50; 93 S4). Raised by a data
  step, in no state a run reaches. Safe (log entry 2). -/
  | unwrittenPrior (i : Nat)
  /-- A data step found `SEL > 4`, which cannot occur (40_defilter_rows.md R123, 10_state.md R27). Raised by a data
  step, in no state a run reaches. Safe (log entry 12). -/
  | selOutOfRange (sel : Byte)
  deriving DecidableEq, Repr

/-- Why a step is refused. -/
inductive Refusal where
  /-- The instruction has no meaning yet. Raised by no arm of this model. Safe. -/
  | notModelled (mnemonic : String)
  /-- `DF.START(w, h)` with `w > MAXW` or `h > MAXH`: "refused: the model gives this token no meaning"
  (42_host_operations.md R192, 93 S7). Raised by that token; never at the default limits. Safe (log entry 4). -/
  | dimensionsBeyondLimits (w h : Word)
  deriving DecidableEq, Repr

/-- The three outcomes over a part of the state. -/
abbrev Result (α : Type) := Host.Outcome α Fault Refusal

/-- Unit DF after reset (10_state.md R50); `DF.OUT` is not listed until it is written. -/
def Df.reset : Df where
  state := .idle
  width := 0
  height := 0
  row := 0
  col := 0
  sel := 0
  prior := []
  cur := []
  errKind := .none
  errRow := 0
  errValue := 0
  out := []

/-- Unit IC after reset, for any CHECKSUM (10_state.md R51). -/
def Ic.resetWith (P : Config.Params) : Ic where
  phase := .len
  cnt := 0
  len := 0
  rem := 0
  tag := ⟨0, 0, 0, 0⟩
  acc := P.checksum.init
  stored := 0
  errKind := .none
  errTag := ⟨0, 0, 0, 0⟩

/-- Unit IC after reset, at the default CHECKSUM (log entry 3). -/
def Ic.reset : Ic := Ic.resetWith params

/-- The host's side at the start (DESIGN CHOICE, log entries 5, 8, 13). -/
def HostSide.reset : HostSide where
  pending := []
  verdicts := []
  replies := []
  freeCount := 0

/-- The machine right after reset, for any OPEN parameters (00_scope.md R5): each unit in its reset state, as 10_state.md
R52 lets a model start (log entry 1). -/
def State.resetWith (P : Config.Params) : State where
  df := Df.reset
  ic := Ic.resetWith P
  host := HostSide.reset

/-- The machine right after reset, at the default parameters. -/
def State.reset : State := State.resetWith params

end Sys2Proof.Machine
end

