-- ==== Sys2Proof/Machine/Ops.lean ====
section
/-! DEFINITION. The named operations over memory and state: byte spaces, sequencing of outcomes, entering FAULT (the one
shared exception operation, 60_exceptions.md R222), the resets. -/

namespace Sys2Proof.Machine

/-- The byte at an address, or none where nothing has written it (20_memory.md R60, R65). -/
def Memory.read : Memory → Nat → Option Byte
  | [], _ => none
  | (k, v) :: m, a => if k = a then some v else Memory.read m a

/-- `MemWrite(space, addr, 1, v)` and `BUF[i] <- v`: a plain store of one byte (00_scope.md R9, 20_memory.md R65). -/
def Memory.write : Memory → Nat → Byte → Memory
  | [], a, b => [(a, b)]
  | (k, v) :: m, a, b =>
    if a < k then (a, b) :: (k, v) :: m
    else if a = k then (k, b) :: m
    else (k, v) :: Memory.write m a b

/-- Every listed address is above `a`, strictly rising. -/
def Memory.risingFrom : Nat → Memory → Bool
  | _, [] => true
  | a, (k, _) :: m => decide (a ≤ k) && Memory.risingFrom (k + 1) m

/-- The canonical form: addresses strictly rising. An unlisted address has no value, so no entry can equal it. -/
def Memory.wf (m : Memory) : Bool := Memory.risingFrom 0 m

/-- The entries below address `n`: the whole contents of a line buffer of `n` bytes. -/
def Memory.below (n : Nat) : Memory → Memory
  | [] => []
  | (k, v) :: m => if k < n then (k, v) :: Memory.below n m else Memory.below n m

/-- Go on only from a next state. -/
def andThen {α β : Type} (o : Result α) (k : α → Result β) : Result β :=
  match o with
  | .next a => k a
  | .fault r => .fault r
  | .refused r => .refused r

/-- `raise Kind(fields)` in DF: the error record is written, `STATE <- FAULT`, everything else keeps its value
(60_exceptions.md R222). -/
def dfRaise (kind : ErrKind) (row : Word) (value : Byte) (d : Df) : Df :=
  { d with state := .fault, errKind := kind, errRow := row, errValue := value }

/-- `raise Kind(fields)` in IC (60_exceptions.md R222). -/
def icRaise (kind : ErrKind) (tag : Tag) (c : Ic) : Ic :=
  { c with phase := .fault, errKind := kind, errTag := tag }

/-- `DF.RESET`, the only way out of FAULT and DONE (42_host_operations.md R191, 60_exceptions.md R224): every element of
10_state.md R50, the line buffers unspecified, `DF.OUT` not touched (70_reset_and_hazards.md R252). -/
def dfReset (d : Df) : Df := { Df.reset with out := d.out }

/-- `IC.RESET` (42_host_operations.md R197): every element of 10_state.md R51. -/
def icReset (P : Config.Params) (_ : Ic) : Ic := Ic.resetWith P

/-- A state with another DF. -/
def State.withDf (s : State) (d : Df) : State := { s with df := d }

/-- A state with another IC. -/
def State.withIc (s : State) (c : Ic) : State := { s with ic := c }

/-- A state with other tokens still to deliver. -/
def State.withPending (s : State) (ts : List Token) : State := { s with host := { s.host with pending := ts } }

/-- `emit`: append a verdict to IC's output event stream (00_scope.md R9). -/
def State.emit (s : State) (v : Verdict) : State :=
  { s with host := { s.host with verdicts := s.host.verdicts ++ [v] } }

/-- Hand the result of a read token to the host. -/
def State.reply (s : State) (r : Reply) : State :=
  { s with host := { s.host with replies := s.host.replies ++ [r] } }

/-- Draw a free value: the counter moves on, so that the next one is another (log entry 8). -/
def State.drawFree (s : State) : State :=
  { s with host := { s.host with freeCount := s.host.freeCount + 1 } }

end Sys2Proof.Machine
end

