-- ==== Sys2Proof/Machine/Operands.lean ====
section
/-! DEFINITION. The operand forms: DF's neighbor mux, predictors and byte reconstructor (40_defilter_rows.md R122 to R127),
its output address (R128, R138), and IC's field assembly (41_integrity_check.md R165, R166, R168). -/

namespace Sys2Proof.Machine

/-- The three neighbor values of a data step (40_defilter_rows.md R122). -/
structure Neighbors where
  left : Byte
  above : Byte
  aboveLeft : Byte
  deriving DecidableEq, Repr

/-- `CUR[i]`; an unwritten entry has no value (10_state.md R50; log entry 2). -/
def readCur (d : Df) (i : Nat) : Result Byte :=
  match d.cur.read i with
  | some b => .next b
  | none => .fault (.unwrittenCur i)

/-- `PRIOR[i]`; an unwritten entry has no value (10_state.md R50; log entry 2). -/
def readPrior (d : Df) (i : Nat) : Result Byte :=
  match d.prior.read i with
  | some b => .next b
  | none => .fault (.unwrittenPrior i)

/-- `a`: `CUR[i - 3]` if `i >= 3`, else 0 (40_defilter_rows.md R122). -/
def leftNeighbor (d : Df) : Result Byte :=
  if Config.bpp ≤ d.col.toNat then readCur d (d.col.toNat - Config.bpp) else .next 0

/-- `b`: `PRIOR[i]` if `y >= 1`, else 0 (R122). -/
def aboveNeighbor (d : Df) : Result Byte :=
  if 1 ≤ d.row.toNat then readPrior d d.col.toNat else .next 0

/-- `c`: `PRIOR[i - 3]` if `y >= 1` and `i >= 3`, else 0 (R122). -/
def aboveLeftNeighbor (d : Df) : Result Byte :=
  if 1 ≤ d.row.toNat ∧ Config.bpp ≤ d.col.toNat then readPrior d (d.col.toNat - Config.bpp) else .next 0

/-- The left/above neighbor mux: all three values are produced for every selector (R122). -/
def neighborMux (d : Df) : Result Neighbors :=
  andThen (leftNeighbor d) fun a =>
  andThen (aboveNeighbor d) fun b =>
  andThen (aboveLeftNeighbor d) fun c =>
  .next ⟨a, b, c⟩

/-- The average predictor: the sum in 9 bits, then halved (R124). -/
def avg (a b : Byte) : Byte := ((a.zeroExtend 9 + b.zeroExtend 9) >>> 1).truncate 8

/-- The Paeth predictor, its intermediates true integers (R125, R126). -/
def paeth (a b c : Byte) : Byte :=
  let p : Int := (a.toNat : Int) + b.toNat - c.toNat
  let pa := (p - a.toNat).natAbs
  let pb := (p - b.toNat).natAbs
  let pc := (p - c.toNat).natAbs
  if pa ≤ pb ∧ pa ≤ pc then a
  else if pb ≤ pc then b
  else c

/-- None (R123, R130). -/
def predNone (_ : Neighbors) : Byte := 0

/-- Sub (R123, R131). -/
def predSub (n : Neighbors) : Byte := n.left

/-- Up (R123, R132). -/
def predUp (n : Neighbors) : Byte := n.above

/-- Average (R123, R133). -/
def predAvg (n : Neighbors) : Byte := avg n.left n.above

/-- Paeth (R123, R134). -/
def predPaeth (n : Neighbors) : Byte := paeth n.left n.above n.aboveLeft

/-- The predictor selector, a closed five-way choice; `SEL > 4` cannot occur in a data step (R123; log entry 12). -/
def predictor (sel : Byte) (n : Neighbors) : Result Byte :=
  if sel = 0 then .next (predNone n)
  else if sel = 1 then .next (predSub n)
  else if sel = 2 then .next (predUp n)
  else if sel = 3 then .next (predAvg n)
  else if sel = 4 then .next (predPaeth n)
  else .fault (.selOutOfRange sel)

/-- The byte reconstructor: an 8-bit addition whose carry out is discarded (R127). -/
def reconstruct (f pred : Byte) : Byte := (f.zeroExtend 9 + pred.zeroExtend 9).truncate 8

/-- The output address `ROW * S + COL`, exact (R128, R136 e). -/
def outAddress (d : Df) : Nat := d.row.toNat * Config.stride d.width + d.col.toNat

/-- Field assembly: `(w << 8)[31:0] + zext_32(x)` (41_integrity_check.md R165, R168). -/
def shiftIn (w : Word) (x : Byte) : Word := (w <<< 8) + x.zeroExtend 32

/-- `TAG[k]`. -/
def tagGet (t : Tag) (k : BitVec 2) : Byte :=
  if k = 0 then t.b0 else if k = 1 then t.b1 else if k = 2 then t.b2 else t.b3

/-- `TAG[k] <- x` (41_integrity_check.md R166). -/
def tagSet (t : Tag) (k : BitVec 2) (x : Byte) : Tag :=
  if k = 0 then { t with b0 := x }
  else if k = 1 then { t with b1 := x }
  else if k = 2 then { t with b2 := x }
  else { t with b3 := x }

end Sys2Proof.Machine
end

