-- ==== Sys2Proof/Machine/Flags.lean ====
section
/-! DEFINITION. The derived flags and values: BUSY, DONE, FAULT, CONSUMED of DF (10_state.md R26, R28), FAULT and MIDRECORD
of IC (R48), the status reads (42_host_operations.md R195, R200), the numeric fault codes (60_exceptions.md R223). No
operation sets a condition code (R28, R48). -/

namespace Sys2Proof.Machine

/-- `BUSY` (10_state.md R28). -/
def dfBusy (d : Df) : Bool := d.state == .select || d.state == .data

/-- `DONE` (R28). -/
def dfDone (d : Df) : Bool := d.state == .done

/-- `FAULT` of DF (R28). -/
def dfFault (d : Df) : Bool := d.state == .fault

/-- `IDLE` (R28). -/
def dfIdle (d : Df) : Bool := d.state == .idle

/-- `CONSUMED`, the input bytes taken so far; exact, not a register (10_state.md R26). Meaningful in SELECT, DATA and
DONE. -/
def consumed (d : Df) : Nat :=
  d.row.toNat * (1 + Config.stride d.width) + if d.state = .data then 1 + d.col.toNat else 0

/-- The length of a complete input, `HEIGHT * (1 + S)` (00_scope.md R4). -/
def programLength (d : Df) : Nat := d.height.toNat * (1 + Config.stride d.width)

/-- `FAULT` of IC (10_state.md R48). -/
def icFault (c : Ic) : Bool := c.phase == .fault

/-- The record boundary, `(PHASE, CNT) = (LEN, 0)` (R41). -/
def atBoundary (c : Ic) : Bool := c.phase == .len && c.cnt == 0

/-- `MIDRECORD` (R48). -/
def midRecord (c : Ic) : Bool := !(icFault c) && !(atBoundary c)

/-- What `DF.READ_STATUS` returns; `SEL`, `PRIOR` and `CUR` are not readable (42_host_operations.md R195). -/
def dfStatus (d : Df) : DfStatus where
  state := d.state
  busy := dfBusy d
  done := dfDone d
  fault := dfFault d
  width := d.width
  height := d.height
  row := d.row
  col := d.col
  errKind := d.errKind
  errRow := d.errRow
  errValue := d.errValue

/-- What `IC.READ_STATUS` returns; `ACC` and `STORED` are not readable (R200). -/
def icStatus (c : Ic) : IcStatus where
  phase := c.phase
  cnt := c.cnt
  len := c.len
  rem := c.rem
  tag := c.tag
  errKind := c.errKind
  errTag := c.errTag
  fault := icFault c
  midRecord := midRecord c

/-- The numeric `ERR_KIND`, where one is needed (60_exceptions.md R223). -/
def errCode : ErrKind → Nat
  | .none => 0
  | .badMagic => 1
  | .truncatedInput => 2
  | .checksumMismatch => 3
  | .unsupportedVariant => 4
  | .invalidDimensions => 5
  | .invalidFilterSelector => 6
  | .decompressionError => 7

end Sys2Proof.Machine
end

