-- ==== Sys2Proof/Machine/Defilter.lean ====
section
/-! DEFINITION. Unit DF's reaction to each of its tokens (42_host_operations.md R191 to R194): start, selector step, data step,
end of row, end of stream. -/

namespace Sys2Proof.Machine

/-- `DF.START(w, h)` (42_host_operations.md R192); outside IDLE it is ignored (R201; log entry 9). -/
def dfStart (P : Config.Params) (w h : Word) (d : Df) : Result Df :=
  if d.state = .idle then
    if w = 0 ∨ h = 0 then .next (dfRaise .invalidDimensions 0 0 d)
    else if P.maxW.toNat < w.toNat ∨ P.maxH.toNat < h.toNat then .refused (.dimensionsBeyondLimits w h)
    else .next { d with width := w, height := h, row := 0, col := 0, state := .select }
  else .next d

/-- The selector step (40_defilter_rows.md R121, R135). -/
def selectorStep (b : Byte) (d : Df) : Df :=
  if selLegal b then { d with sel := b, col := 0, state := .data }
  else dfRaise .invalidFilterSelector d.row b d

/-- The end-of-row actions, `CUR[S-1]` already written (40_defilter_rows.md R129). -/
def endOfRow (d : Df) : Df :=
  { d with
    prior := d.cur.below (Config.stride d.width)
    col := 0
    row := d.row + 1
    state := if d.row.toNat + 1 < d.height.toNat then .select else .done }

/-- The writes of a data step that reconstructed the byte `r` (40_defilter_rows.md R128). -/
def storeByte (r : Byte) (d : Df) : Df :=
  let e := { d with cur := d.cur.write d.col.toNat r, out := d.out.write (outAddress d) r }
  if d.col.toNat + 1 < Config.stride d.width then { e with col := d.col + 1 } else endOfRow e

/-- The data step: mux, predictor selector, byte reconstructor, in that order, on the buffers as they were before the
step (40_defilter_rows.md R120, R128). -/
def dataStep (f : Byte) (d : Df) : Result Df :=
  andThen (neighborMux d) fun n =>
  andThen (predictor d.sel n) fun pred =>
  .next (storeByte (reconstruct f pred) d)

/-- `DF.PUSH(b)` by state; ignored in DONE, FAULT and IDLE (42_host_operations.md R193; log entries 9, 10). -/
def dfPush (b : Byte) (d : Df) : Result Df :=
  match d.state with
  | .select => .next (selectorStep b d)
  | .data => dataStep b d
  | .done => .next d
  | .fault => .next d
  | .idle => .next d

/-- The pushes of several bytes, in order (20_memory.md R61, R73). -/
def dfPushAll : List Byte → Df → Result Df
  | [], d => .next d
  | b :: bs, d => andThen (dfPush b d) (dfPushAll bs)

/-- `DF.EOS` by state (42_host_operations.md R194, 60_exceptions.md R216; log entry 11). -/
def dfEos (d : Df) : Df :=
  match d.state with
  | .select => dfRaise .truncatedInput 0 0 d
  | .data => dfRaise .truncatedInput 0 0 d
  | .done => d
  | .fault => d
  | .idle => d

end Sys2Proof.Machine
end

