-- ==== Sys2Proof/Machine/Integrity.lean ====
section
/-! DEFINITION. Unit IC's reaction to each of its tokens (42_host_operations.md R198, R199): the four phases of a block record
(41_integrity_check.md R165 to R168) and the end of the stream. -/

namespace Sys2Proof.Machine

/-- The four zero bytes `ERR_TAG` holds where no tag is recorded (10_state.md R47). -/
def zeroTag : Tag := ⟨0, 0, 0, 0⟩

/-- Phase LEN (41_integrity_check.md R165). -/
def lenStep (P : Config.Params) (x : Byte) (c : Ic) : Ic :=
  let e := { c with len := shiftIn c.len x }
  if c.cnt.toNat < 3 then { e with cnt := c.cnt + 1 }
  else { e with cnt := 0, acc := P.checksum.init, phase := .tag }

/-- Phase TAG (41_integrity_check.md R166). -/
def tagStep (P : Config.Params) (x : Byte) (c : Ic) : Ic :=
  let e := { c with tag := tagSet c.tag c.cnt x, acc := P.checksum.update c.acc x }
  if c.cnt.toNat < 3 then { e with cnt := c.cnt + 1 }
  else { e with cnt := 0, rem := c.len, stored := 0, phase := if 0 < c.len.toNat then .payload else .crc }

/-- Phase PAYLOAD; `REM` is read before the decrement (41_integrity_check.md R167). -/
def payloadStep (P : Config.Params) (x : Byte) (c : Ic) : Ic :=
  { c with
    acc := P.checksum.update c.acc x
    rem := c.rem - 1
    phase := if c.rem = 1 then .crc else .payload }

/-- Phase CRC: the comparison at the last byte gives a verdict or raises `ChecksumMismatch`, which drops the step's
other writes (41_integrity_check.md R168, R170, R171; 60_exceptions.md R219, R222). -/
def crcStep (P : Config.Params) (x : Byte) (c : Ic) : Ic × Option Verdict :=
  let stored := shiftIn c.stored x
  if c.cnt.toNat < 3 then ({ c with stored := stored, cnt := c.cnt + 1 }, none)
  else if P.checksum.final c.acc = stored then
    ({ c with stored := stored, cnt := 0, phase := .len }, some ⟨c.tag, c.len⟩)
  else (icRaise .checksumMismatch c.tag c, none)

/-- `IC.PUSH(x)` by phase; ignored in FAULT (42_host_operations.md R198). -/
def icPush (P : Config.Params) (x : Byte) (c : Ic) : Ic × Option Verdict :=
  match c.phase with
  | .len => (lenStep P x c, none)
  | .tag => (tagStep P x c, none)
  | .payload => (payloadStep P x c, none)
  | .crc => crcStep P x c
  | .fault => (c, none)

/-- The pushes of several bytes, in order, with the verdicts emitted (20_memory.md R64, R73; 41_integrity_check.md R170). -/
def icPushAll (P : Config.Params) : List Byte → Ic → Ic × List Verdict
  | [], c => (c, [])
  | x :: xs, c =>
    let r := icPush P x c
    let q := icPushAll P xs r.1
    (q.1, r.2.toList ++ q.2)

/-- `IC.EOS`: no effect at the record boundary and in FAULT, `TruncatedInput` in mid-record (42_host_operations.md R199,
41_integrity_check.md R175, 60_exceptions.md R220). -/
def icEos (c : Ic) : Ic := if midRecord c then icRaise .truncatedInput zeroTag c else c

end Sys2Proof.Machine
end

