-- ==== Sys2Proof/Machine/HostOps.lean ====
section
/-! DEFINITION. The ten host operations (42_host_operations.md R190): what delivering one token to its unit does, and token
sequences. A delivery is the spec's own step (00_scope.md R7). -/

namespace Sys2Proof.Machine

/-- `DF.READ_OUT(addr)`: in DONE, below `HEIGHT * S`, the byte of `DF.OUT`; anywhere else an unspecified value
(42_host_operations.md R196, R201). DF is not changed. -/
def readOut (addr : Nat) (s : State) : State :=
  if s.df.state = .done ∧ addr < s.df.height.toNat * Config.stride s.df.width then
    match s.df.out.read addr with
    | some b => s.reply (.outByte addr b)
    | none => (s.reply (.outUnspecified addr (Config.freeByte s.host.freeCount))).drawFree
  else (s.reply (.outUnspecified addr (Config.freeByte s.host.freeCount))).drawFree

/-- DF's part of a state after a DF operation. -/
def onDf (o : Result Df) (s : State) : Result State := andThen o fun d => .next (s.withDf d)

/-- IC's part of a state after a step of IC, with the verdict it emitted (41_integrity_check.md R170). -/
def onIc (r : Ic × Option Verdict) (s : State) : State :=
  match r.2 with
  | some v => (s.withIc r.1).emit v
  | none => s.withIc r.1

/-- The reaction to one token (42_host_operations.md R190 to R200), the OPEN parameters an argument (00_scope.md R5). -/
def deliver (P : Config.Params) (t : Token) (s : State) : Result State :=
  match t with
  | .dfReset => .next (s.withDf (dfReset s.df))
  | .dfStart w h => onDf (dfStart P w h s.df) s
  | .dfPush b => onDf (dfPush b s.df) s
  | .dfEos => .next (s.withDf (dfEos s.df))
  | .dfReadStatus => .next (s.reply (.dfStatus (dfStatus s.df)))
  | .dfReadOut addr => .next (readOut addr s)
  | .icReset => .next (s.withIc (icReset P s.ic))
  | .icPush x => .next (onIc (icPush P x s.ic) s)
  | .icEos => .next (s.withIc (icEos s.ic))
  | .icReadStatus => .next (s.reply (.icStatus (icStatus s.ic)))

/-- The reaction to a token sequence, in order (20_memory.md R73). -/
def deliverAll (P : Config.Params) : List Token → State → Result State
  | [], s => .next s
  | t :: ts, s => andThen (deliver P t s) (deliverAll P ts)

/-- The tokens that push bytes into DF, in order (30_encoding.md R107). -/
def dfPushes (bytes : List Byte) : List Token := bytes.map .dfPush

/-- The tokens that push bytes into IC, in order (30_encoding.md R107). -/
def icPushes (bytes : List Byte) : List Token := bytes.map .icPush

/-- Deliver the host's next token: the step of 00_scope.md R7, one token at a time. Without a token the unit waits
(93_implementation_defined.md S10; log entry 7). -/
def tokenStep (P : Config.Params) (s : State) : Result State :=
  match s.host.pending with
  | [] => .fault .awaitingToken
  | t :: rest => deliver P t (s.withPending rest)

/-- `n` token steps. -/
def tokenSteps (P : Config.Params) : Nat → State → Result State
  | 0, s => .next s
  | n + 1, s => andThen (tokenStep P s) (tokenSteps P n)

end Sys2Proof.Machine
end

