-- ==== Sys2Proof/Machine/Blocks.lean ====
section
/-! DEFINITION. The block record (41_integrity_check.md R169) and the one pseudo-instruction (30_encoding.md R108). -/

namespace Sys2Proof.Machine

/-- `CHKBLK`: the record's bytes pushed in stream order (41_integrity_check.md R165 to R169). -/
def chkblkWith (P : Config.Params) (length : Word) (tag : Tag) (payload : List Byte) (crc : Word)
    (s : State) : Result State :=
  deliverAll P (icPushes (bytesBE length ++ tagBytes tag ++ payload ++ bytesBE crc)) s

/-- The same at the default parameters. -/
def execChkblk (length : Word) (tag : Tag) (payload : List Byte) (crc : Word) (s : State) : Result State :=
  chkblkWith params length tag payload crc s

/-- `chkblk.ok`: the record whose stored checksum is correct by construction (30_encoding.md R108). -/
def chkblkOk (P : Config.Params) (tag : Tag) (payload : List Byte) : Instr :=
  .chkblk (BitVec.ofNat 32 payload.length) tag payload (checksum P.checksum (tagBytes tag ++ payload))

end Sys2Proof.Machine
end

