-- ==== Sys2Proof/Machine/Rows.lean ====
section
/-! DEFINITION. The row records (40_defilter_rows.md R120, R130 to R135): one meaning per operation. A record is its bytes pushed
in stream order, one token each (R120, 30_encoding.md R107): a selector step, then one data step per filtered byte. Each
meaning stands for any OPEN parameters (00_scope.md R5) and at their defaults. -/

namespace Sys2Proof.Machine

/-- `ROW.NONE` (R130). -/
def rowNoneWith (P : Config.Params) (f : List Byte) (s : State) : Result State :=
  deliverAll P (dfPushes (0x00 :: f)) s

/-- The same at the default parameters. -/
def execRowNone (f : List Byte) (s : State) : Result State := rowNoneWith params f s

/-- `ROW.SUB` (R131). -/
def rowSubWith (P : Config.Params) (f : List Byte) (s : State) : Result State := deliverAll P (dfPushes (0x01 :: f)) s

/-- The same at the default parameters. -/
def execRowSub (f : List Byte) (s : State) : Result State := rowSubWith params f s

/-- `ROW.UP` (R132). -/
def rowUpWith (P : Config.Params) (f : List Byte) (s : State) : Result State := deliverAll P (dfPushes (0x02 :: f)) s

/-- The same at the default parameters. -/
def execRowUp (f : List Byte) (s : State) : Result State := rowUpWith params f s

/-- `ROW.AVG` (R133). -/
def rowAvgWith (P : Config.Params) (f : List Byte) (s : State) : Result State := deliverAll P (dfPushes (0x03 :: f)) s

/-- The same at the default parameters. -/
def execRowAvg (f : List Byte) (s : State) : Result State := rowAvgWith params f s

/-- `ROW.PAETH` (R134). -/
def rowPaethWith (P : Config.Params) (f : List Byte) (s : State) : Result State :=
  deliverAll P (dfPushes (0x04 :: f)) s

/-- The same at the default parameters. -/
def execRowPaeth (f : List Byte) (s : State) : Result State := rowPaethWith params f s

/-- Illegal selector 0x05 (R135). -/
def rowIllegal05With (P : Config.Params) (s : State) : Result State := deliverAll P (dfPushes [0x05]) s

/-- The same at the default parameters. -/
def execRowIllegal05 (s : State) : Result State := rowIllegal05With params s

/-- Illegal selectors 0x06 and 0x07 (R135). -/
def rowIllegal0607With (P : Config.Params) (low : BitVec 1) (s : State) : Result State :=
  deliverAll P (dfPushes [0b0000011#7 ++ low]) s

/-- The same at the default parameters. -/
def execRowIllegal0607 (low : BitVec 1) (s : State) : Result State := rowIllegal0607With params low s

/-- Illegal selectors 0x08 to 0x0F (R135). -/
def rowIllegal080FWith (P : Config.Params) (low : BitVec 3) (s : State) : Result State :=
  deliverAll P (dfPushes [0b00001#5 ++ low]) s

/-- The same at the default parameters. -/
def execRowIllegal080F (low : BitVec 3) (s : State) : Result State := rowIllegal080FWith params low s

/-- Illegal selectors 0x10 to 0x1F (R135). -/
def rowIllegal101FWith (P : Config.Params) (low : BitVec 4) (s : State) : Result State :=
  deliverAll P (dfPushes [0b0001#4 ++ low]) s

/-- The same at the default parameters. -/
def execRowIllegal101F (low : BitVec 4) (s : State) : Result State := rowIllegal101FWith params low s

/-- Illegal selectors 0x20 to 0x3F (R135). -/
def rowIllegal203FWith (P : Config.Params) (low : BitVec 5) (s : State) : Result State :=
  deliverAll P (dfPushes [0b001#3 ++ low]) s

/-- The same at the default parameters. -/
def execRowIllegal203F (low : BitVec 5) (s : State) : Result State := rowIllegal203FWith params low s

/-- Illegal selectors 0x40 to 0x7F (R135). -/
def rowIllegal407FWith (P : Config.Params) (low : BitVec 6) (s : State) : Result State :=
  deliverAll P (dfPushes [0b01#2 ++ low]) s

/-- The same at the default parameters. -/
def execRowIllegal407F (low : BitVec 6) (s : State) : Result State := rowIllegal407FWith params low s

/-- Illegal selectors 0x80 to 0xFF (R135). -/
def rowIllegal80FFWith (P : Config.Params) (low : BitVec 7) (s : State) : Result State :=
  deliverAll P (dfPushes [0b1#1 ++ low]) s

/-- The same at the default parameters. -/
def execRowIllegal80FF (low : BitVec 7) (s : State) : Result State := rowIllegal80FFWith params low s

end Sys2Proof.Machine
end

