-- ==== Sys2Proof/Machine/Dispatch.lean ====
section
/-! DEFINITION. One arm per instruction: a direct call of its meaning. -/

namespace Sys2Proof.Machine

def exec (i : Instr) (s : State) : Host.Outcome State Fault Refusal :=
  match i with
  | .rowNone f => Sys2Proof.Machine.execRowNone f s
  | .rowSub f => Sys2Proof.Machine.execRowSub f s
  | .rowUp f => Sys2Proof.Machine.execRowUp f s
  | .rowAvg f => Sys2Proof.Machine.execRowAvg f s
  | .rowPaeth f => Sys2Proof.Machine.execRowPaeth f s
  | .rowIllegal05 => Sys2Proof.Machine.execRowIllegal05 s
  | .rowIllegal0607 low => Sys2Proof.Machine.execRowIllegal0607 low s
  | .rowIllegal080F low => Sys2Proof.Machine.execRowIllegal080F low s
  | .rowIllegal101F low => Sys2Proof.Machine.execRowIllegal101F low s
  | .rowIllegal203F low => Sys2Proof.Machine.execRowIllegal203F low s
  | .rowIllegal407F low => Sys2Proof.Machine.execRowIllegal407F low s
  | .rowIllegal80FF low => Sys2Proof.Machine.execRowIllegal80FF low s
  | .chkblk length tag payload crc => Sys2Proof.Machine.execChkblk length tag payload crc s

end Sys2Proof.Machine
end

