-- ==== Sys2Proof/Machine/Fetch.lean ====
section
/-! DEFINITION. What the machine runs next: the record at the head of the host's tokens where a unit is at a record's start
and the whole record is there, else the single token (log entries 5, 6); and how a table word is placed there. -/

namespace Sys2Proof.Machine

/-- What `step` runs next. -/
inductive Fetched where
  /-- The host has no token. -/
  | nothing
  /-- One token, and the tokens behind it. -/
  | token (t : Token) (rest : List Token)
  /-- A whole record, and the tokens behind it. -/
  | record (i : Instr) (rest : List Token)
  deriving DecidableEq, Repr

/-- The bytes of the DF pushes that lie together at the head of the tokens. -/
def dfBytes : List Token → List Byte
  | .dfPush b :: ts => b :: dfBytes ts
  | _ => []

/-- The bytes of the IC pushes that lie together at the head of the tokens. -/
def icBytes : List Token → List Byte
  | .icPush x :: ts => x :: icBytes ts
  | _ => []

/-- The record a decoder read, or, where the record is not all there, the head token. -/
def recordOr (t : Token) (rest : List Token) (r : Except DecodeError (Instr × List Byte)) : Fetched :=
  match r with
  | .ok (i, _) => .record i ((t :: rest).drop (encode i).length)
  | .error _ => .token t rest

/-- The next thing to run. In SELECT a DF push starts a row record (40_defilter_rows.md R120); at the record boundary an
IC push starts a block record (10_state.md R41). -/
def fetch (s : State) : Fetched :=
  match s.host.pending with
  | [] => .nothing
  | .dfPush b :: rest =>
    if s.df.state = .select then
      recordOr (.dfPush b) rest (decode .df s.df.width (dfBytes (.dfPush b :: rest)))
    else .token (.dfPush b) rest
  | .icPush x :: rest =>
    if atBoundary s.ic then
      recordOr (.icPush x) rest (decode .ic s.df.width (icBytes (.icPush x :: rest)))
    else .token (.icPush x) rest
  | t :: rest => .token t rest

/-- `s` with a table word's record as the tokens to deliver, its unit at a record's start: IC reset, or DF reset and
started with the record's WIDTH and one row (log entry 14). -/
def placeTableWord (s : State) (nbits w : Nat) : State :=
  match tableUnit nbits with
  | .df =>
    (s.withDf { dfReset s.df with width := tableWidth nbits, height := 1, state := .select }).withPending
      (dfPushes (tableRecord nbits w))
  | .ic => (s.withIc (icReset params s.ic)).withPending (icPushes (tableRecord nbits w))

end Sys2Proof.Machine
end

