-- ==== Sys2Proof/Machine/Execute.lean ====
section
/-! DEFINITION. The machine with the OPEN parameters an argument (00_scope.md R5): an instruction, a step. -/

namespace Sys2Proof.Machine

/-- An instruction's meaning, for any MAXW, MAXH and CHECKSUM. -/
def execWith (P : Config.Params) (i : Instr) (s : State) : Result State :=
  match i with
  | .rowNone f => rowNoneWith P f s
  | .rowSub f => rowSubWith P f s
  | .rowUp f => rowUpWith P f s
  | .rowAvg f => rowAvgWith P f s
  | .rowPaeth f => rowPaethWith P f s
  | .rowIllegal05 => rowIllegal05With P s
  | .rowIllegal0607 low => rowIllegal0607With P low s
  | .rowIllegal080F low => rowIllegal080FWith P low s
  | .rowIllegal101F low => rowIllegal101FWith P low s
  | .rowIllegal203F low => rowIllegal203FWith P low s
  | .rowIllegal407F low => rowIllegal407FWith P low s
  | .rowIllegal80FF low => rowIllegal80FFWith P low s
  | .chkblk length tag payload crc => chkblkWith P length tag payload crc s

/-- Run what is fetched: a record by `run`, a token by its delivery (log entries 6, 7). -/
def runFetched (P : Config.Params) (run : Instr → State → Result State) (s : State) : Result State :=
  match fetch s with
  | .nothing => .fault .awaitingToken
  | .token t rest => deliver P t (s.withPending rest)
  | .record i rest => run i (s.withPending rest)

/-- One step, for any MAXW, MAXH and CHECKSUM. -/
def stepWith (P : Config.Params) (s : State) : Result State := runFetched P (execWith P) s

end Sys2Proof.Machine
end

