-- ==== Sys2Proof/Machine/Step.lean ====
section
/-! DEFINITION. One step of the machine: the record that is next, or the token that is next (log entry 6). -/

namespace Sys2Proof.Machine

/-- One step at the default parameters. -/
def step (s : State) : Host.Outcome State Fault Refusal := runFetched params exec s

/-- `s` with a word of the opcode table placed where `step` fetches next (log entry 14). -/
def State.withFetchWord (s : State) (nbits w : Nat) : State := placeTableWord s nbits w

end Sys2Proof.Machine
end

