-- ==== Sys2Proof/Safety.lean ====
section
/-! DEFINITION. What claims are stated in: the invariants of 10_state.md R34 and R49, readable line buffers, the relation a
decoded row stands in (40_defilter_rows.md R139), usable output (60_exceptions.md R228). -/

namespace Sys2Proof.Machine

/-- DF is running a program: SELECT, DATA or DONE (10_state.md R34 d). -/
abbrev running (d : Df) : Prop := d.state = .select ∨ d.state = .data ∨ d.state = .done

/-- Every entry below `n` of a space has a value. -/
abbrev writtenBelow (m : Memory) (n : Nat) : Prop := ∀ i, i < n → (m.read i).isSome = true

/-- No entry at or above `n` has a value. -/
def emptyFrom (m : Memory) (n : Nat) : Prop := ∀ i, n ≤ i → m.read i = none

/-- The previous row can be read wherever the mux reads it: it has no row above it, or every entry of PRIOR has a
value. -/
abbrev priorReadable (d : Df) : Prop := d.row ≠ 0 → writtenBelow d.prior (Config.stride d.width)

/-- The invariants of DF: 10_state.md R34 (a) to (e), the error record of R29, what the line buffers hold (R30, R31), the
written part of the output (R34 c, 20_memory.md R70), the canonical form of the spaces. -/
structure DfInv (d : Df) : Prop where
  /-- The spaces are in their canonical form. -/
  wf : d.prior.wf = true ∧ d.cur.wf = true ∧ d.out.wf = true
  /-- R34 (a). -/
  data : d.state = .data → d.col.toNat < Config.stride d.width ∧ d.row.toNat < d.height.toNat ∧ d.sel.toNat ≤ 4
  /-- R34 (b). -/
  select : d.state = .select → d.col = 0 ∧ d.row.toNat < d.height.toNat
  /-- R34 (c). -/
  done : d.state = .done → d.row = d.height ∧ d.col = 0
  /-- R34 (d). -/
  dims : running d → d.width ≠ 0 ∧ d.height ≠ 0
  /-- R34 (e). -/
  fault : d.state = .fault ↔ d.errKind ≠ .none
  /-- R29: the fields of the error record. -/
  errFields : d.errKind ≠ .invalidFilterSelector → d.errRow = 0 ∧ d.errValue = 0
  /-- R215, R223: the kinds DF raises. -/
  errKinds : d.errKind = .none ∨ d.errKind = .truncatedInput ∨ d.errKind = .invalidDimensions ∨
    d.errKind = .invalidFilterSelector
  /-- R60: the line buffers have `S` entries. -/
  lines : emptyFrom d.prior (Config.stride d.width) ∧ emptyFrom d.cur (Config.stride d.width)
  /-- R50: before a run nothing has written the line buffers. -/
  fresh : d.state = .idle → d.prior = [] ∧ d.cur = []
  /-- R30: PRIOR holds the reconstructed bytes of the previous row. -/
  priorRow : running d → d.row ≠ 0 → ∀ i, i < Config.stride d.width →
    d.prior.read i = d.out.read ((d.row.toNat - 1) * Config.stride d.width + i)
  /-- R31: CUR holds the reconstructed bytes of the current row so far. -/
  curRow : d.state = .data → ∀ i, i < d.col.toNat →
    d.cur.read i = d.out.read (d.row.toNat * Config.stride d.width + i)
  /-- R34 (c), R70: the output is written up to the current position. -/
  outWritten : running d → writtenBelow d.out (outAddress d)

/-- The invariants of IC: 10_state.md R49 (a) and (c), the error record of R47, CNT in phase PAYLOAD (R41). -/
structure IcInv (c : Ic) : Prop where
  /-- R49 (a). -/
  payload : c.phase = .payload → 1 ≤ c.rem.toNat ∧ c.rem.toNat ≤ c.len.toNat
  /-- R41. -/
  payloadCnt : c.phase = .payload → c.cnt = 0
  /-- R49 (c). -/
  fault : c.phase = .fault ↔ c.errKind ≠ .none
  /-- R47: the field of the error record. -/
  errField : c.errKind ≠ .checksumMismatch → c.errTag = zeroTag
  /-- R215, R223: the kinds IC raises. -/
  errKinds : c.errKind = .none ∨ c.errKind = .truncatedInput ∨ c.errKind = .checksumMismatch

/-- Both units' invariants. -/
def MachineInv (s : State) : Prop := DfInv s.df ∧ IcInv s.ic

/-- The predictor of the closed form (40_defilter_rows.md R139). -/
def pred (sel : Byte) (n : Neighbors) : Byte :=
  if sel = 0 then 0
  else if sel = 1 then n.left
  else if sel = 2 then n.above
  else if sel = 3 then BitVec.ofNat 8 ((n.left.toNat + n.above.toNat) / 2)
  else paeth n.left n.above n.aboveLeft

/-- The value a space gives at a position, 0 at the boundary (`R[y][i] = 0` for `i < 0` or `y < 0`, R139). -/
abbrev valueOr0 (boundary : Bool) (m : Memory) (a : Nat) (v : Byte) : Prop :=
  if boundary then v = 0 else m.read a = some v

/-- `row` holds the `S` bytes that the filtered bytes `f` decode to under selector `sel`, with `above` the previous row
or, where `first`, no row above (R139). -/
def rowDecoded (sel : Byte) (f : List Byte) (S : Nat) (first : Bool) (above row : Memory) : Prop :=
  ∀ i, i < S → ∃ n : Neighbors,
    valueOr0 (decide (i < 3)) row (i - 3) n.left ∧
    valueOr0 first above i n.above ∧
    valueOr0 (first || decide (i < 3)) above (i - 3) n.aboveLeft ∧
    row.read i = some (f.getD i 0 + pred sel n)

/-- What a row record leaves behind when it has run from SELECT: `e` is DF after it, `d` before (40_defilter_rows.md R121,
R128, R129). The reconstructed bytes themselves are each operation's own. -/
structure RowTaken (sel : Byte) (d e : Df) : Prop where
  /-- The selector is held (R121). -/
  sel : e.sel = sel
  /-- The next row, from its first byte (R129). -/
  position : e.row = d.row + 1 ∧ e.col = 0
  /-- SELECT while rows remain, else DONE (R129). -/
  state : e.state = if d.row.toNat + 1 < d.height.toNat then .select else .done
  /-- The control registers and the error record keep their values. -/
  kept : e.width = d.width ∧ e.height = d.height ∧ e.errKind = d.errKind ∧ e.errRow = d.errRow ∧
    e.errValue = d.errValue
  /-- The row just completed is the prior row, `S` entries (R129). -/
  prior : ∀ i, e.prior.read i = if i < Config.stride d.width then e.cur.read i else none
  /-- CUR holds what was written to the output, and nothing beyond the row changed (R128). -/
  cur : ∀ i, if i < Config.stride d.width then
      e.cur.read i = e.out.read (d.row.toNat * Config.stride d.width + i) else e.cur.read i = d.cur.read i
  /-- Every byte of DF.OUT outside the row's `S` addresses reads as before (R128). -/
  out : ∀ a, a < d.row.toNat * Config.stride d.width ∨
    d.row.toNat * Config.stride d.width + Config.stride d.width ≤ a → e.out.read a = d.out.read a

/-- The condition under which a row record runs as R120 says: SELECT, a legal WIDTH, `S` filtered bytes, and, below the
first row, a previous row to read. -/
abbrev RowReady (f : List Byte) (d : Df) : Prop :=
  d.state = .select ∧ d.width ≠ 0 ∧ f.length = Config.stride d.width ∧ priorReadable d

/-- DF after `raise InvalidFilterSelector(row = ROW, value)`: the error record and FAULT, all else kept (R135, R222). -/
def selectorFault (value : Byte) (d : Df) : Df :=
  { d with state := .fault, errKind := .invalidFilterSelector, errRow := d.row, errValue := value }

/-- The rows of an image, a selector and its filtered bytes each, as one program (30_encoding.md R95). -/
def programBytes : List (Byte × List Byte) → List Byte
  | [] => []
  | (sel, f) :: rows => sel :: f ++ programBytes rows

/-- `DF.OUT` is a finished image that the host may use (10_state.md R23, 60_exceptions.md R228). -/
def outputUsable (d : Df) : Prop := d.state = .done ∧ writtenBelow d.out (d.height.toNat * Config.stride d.width)

/-- A token of unit DF. -/
def Token.isDf : Token → Bool
  | .dfReset => true
  | .dfStart _ _ => true
  | .dfPush _ => true
  | .dfEos => true
  | .dfReadStatus => true
  | .dfReadOut _ => true
  | .icReset => false
  | .icPush _ => false
  | .icEos => false
  | .icReadStatus => false

end Sys2Proof.Machine
end

