-- ==== Sys2Proof/Certificates/Slice0/Obligations.lean ====
section
/-! DEFINITION. The statements for the provers, from the numbered rules of spec/. -/

open Sys2Proof Sys2Proof.Machine

/-! ### Encoding -/

/-- 30_encoding.md R91, R92, R96 to R99: the decoder gives back every well-formed record, operands and all, and leaves
the bytes behind it. -/
def Obligations.DecodeOfEncode : Prop :=
  ∀ (width : Word) (i : Instr) (rest : List Byte), i.wellFormed width = true →
    decode i.unit width (encode i ++ rest) = .ok (i, rest)

/-- 30_encoding.md R104, R105: whatever bytes decode are the encoding of the one well-formed record they decode to. -/
def Obligations.EncodeOfDecode : Prop :=
  ∀ (u : StreamUnit) (width : Word) (bytes rest : List Byte) (i : Instr), decode u width bytes = .ok (i, rest) →
    i.unit = u ∧ i.wellFormed width = true ∧ encode i ++ rest = bytes

/-- 30_encoding.md R92, R104: every selector byte is exactly one row of the opcode map, the first five rows are the legal
selectors 0 to 4, and no other bit pattern is legal. -/
def Obligations.SelectorRowsPartition : Prop :=
  ∀ sel : Byte, (rowTable.filter (rowMatches sel)).length = 1 ∧
    (selLegal sel = true ↔ sel = 0 ∨ sel = 1 ∨ sel = 2 ∨ sel = 3 ∨ sel = 4) ∧
    (selLegal sel = true ↔ ((rowTable.take 5).any (rowMatches sel)) = true)

/-- 30_encoding.md R94, R97, R99, R105: a row record with a legal selector decodes exactly when `S` bytes stand behind it, a
block record exactly when `12 + length` bytes are there; no field value is refused. That an illegal selector decodes with no
byte behind it is read from 40_defilter_rows.md R135 "*Operands:* none are consumed" (DEDUCED, log entry 15). -/
def Obligations.DecodeNeedsOnlyLength : Prop :=
  (∀ (width : Word) (sel : Byte) (rest : List Byte),
    (∃ r, decode .df width (sel :: rest) = .ok r) ↔ (sel.toNat ≤ 4 → Config.stride width ≤ rest.length)) ∧
  (∀ (width : Word) (l0 l1 l2 l3 : Byte) (rest : List Byte),
    (∃ r, decode .ic width (l0 :: l1 :: l2 :: l3 :: rest) = .ok r) ↔
      l0.toNat * 2 ^ 24 + l1.toNat * 2 ^ 16 + l2.toNat * 2 ^ 8 + l3.toNat + 8 ≤ rest.length)

/-- Words written out from the encodings of 30_encoding.md and the vectors of 95_test_vectors.md. That the record of the
illegal selector 0x09 is its selector byte alone, the bytes behind it left, is read from 40_defilter_rows.md R135 (DEDUCED,
log entry 15). -/
def Obligations.WrittenWordsDecode : Prop :=
  decode .df 1 [0x00, 0x0A, 0x14, 0x1E] = .ok (.rowNone [10, 20, 30], []) ∧
  decode .df 2 [0x01, 5, 0, 0, 3, 0, 0, 0x02] = .ok (.rowSub [5, 0, 0, 3, 0, 0], [0x02]) ∧
  decode .df 1 [0x09, 0, 0, 0] = .ok (.rowIllegal080F 1, [0, 0, 0]) ∧
  decode .ic 0 [0x00, 0x00, 0x00, 0x03, 0x74, 0x65, 0x53, 0x74, 0x0A, 0x14, 0x1E, 0x9F, 0xAA, 0x58, 0x9F] =
    .ok (.chkblk 3 ⟨0x74, 0x65, 0x53, 0x74⟩ [10, 20, 30] 0x9FAA589F, [])

/-! ### A step runs what it fetches -/

/-- In SELECT, when the host's next tokens push a well-formed row record, the step is exec of it, with the tokens behind
it still to deliver (40_defilter_rows.md R120; log entry 6); the same with any OPEN parameters (00_scope.md R5). -/
def Obligations.StepRunsRowRecord : Prop :=
  ∀ (s : State) (i : Instr) (rest : List Token), s.df.state = .select → i.unit = .df →
    i.wellFormed s.df.width = true → s.host.pending = dfPushes (encode i) ++ rest →
    step s = exec i (s.withPending rest) ∧ ∀ P : Config.Params, stepWith P s = execWith P i (s.withPending rest)

/-- At the record boundary, when the host's next tokens push a well-formed block record, the step is exec of it
(10_state.md R41; log entry 6); the same with any OPEN parameters (00_scope.md R5). -/
def Obligations.StepRunsBlockRecord : Prop :=
  ∀ (s : State) (i : Instr) (rest : List Token), s.ic.phase = .len → s.ic.cnt = 0 → i.unit = .ic →
    i.wellFormed s.df.width = true → s.host.pending = icPushes (encode i) ++ rest →
    step s = exec i (s.withPending rest) ∧ ∀ P : Config.Params, stepWith P s = execWith P i (s.withPending rest)

/-- A token that does not start a record is a step of its own: every token that pushes nothing, every push outside a
record's start (00_scope.md R7); with any OPEN parameters too. -/
def Obligations.StepDeliversOneToken : Prop :=
  ∀ (s : State) (t : Token) (rest : List Token), s.host.pending = t :: rest →
    (∀ b, t = .dfPush b → s.df.state ≠ .select) → (∀ x, t = .icPush x → atBoundary s.ic = false) →
    step s = deliver params t (s.withPending rest) ∧
      ∀ P : Config.Params, stepWith P s = deliver P t (s.withPending rest)

/-- Every step is a run of one or more of the spec's own steps, one token each (00_scope.md R7; log entry 6), with any OPEN
parameters: running a whole record in one step gives nothing that the tokens one by one do not give, and where the host has
no token both wait. -/
def Obligations.StepIsTokenSteps : Prop :=
  ∀ s : State, (∃ n, 1 ≤ n ∧ tokenSteps params n s = step s) ∧
    ∀ P : Config.Params, ∃ n, 1 ≤ n ∧ tokenSteps P n s = stepWith P s

/-- 00_scope.md R5, "A model takes each `OPEN` parameter as an argument": the fixed-name machine is the one with parameters
at their defaults (log entries 3, 4), and a row record means the same whatever they are. -/
def Obligations.DefaultsAreOneInstance : Prop :=
  State.reset = State.resetWith params ∧ (∀ s, step s = stepWith params s) ∧ (∀ i s, exec i s = execWith params i s) ∧
  ∀ (P : Config.Params) (i : Instr) (s : State), i.unit = .df → execWith P i s = exec i s

/-! ### Reset and start -/

/-- 42_host_operations.md R191, 70_reset_and_hazards.md R252: DF.RESET in every state. The line buffers hold no value after
it, which is how the model has them "unspecified" (log entry 2). -/
def Obligations.DfResetInEveryState : Prop :=
  ∀ (P : Config.Params) (s : State), ∃ d, deliver P .dfReset s = .next (s.withDf d) ∧
    d.state = .idle ∧ d.width = 0 ∧ d.height = 0 ∧ d.row = 0 ∧ d.col = 0 ∧ d.sel = 0 ∧
    d.errKind = .none ∧ d.errRow = 0 ∧ d.errValue = 0 ∧ d.out = s.df.out ∧
    (∀ i, d.prior.read i = none ∧ d.cur.read i = none)

/-- 42_host_operations.md R197, 10_state.md R51: IC.RESET in every state, for every CHECKSUM: all nine registers, nothing
else of the machine; for the default CHECKSUM ACC is 0xFFFFFFFF (PRESUMED, log entry 3). -/
def Obligations.IcResetInEveryState : Prop :=
  (∀ (P : Config.Params) (s : State), deliver P .icReset s = .next (s.withIc
    { phase := .len, cnt := 0, len := 0, rem := 0, tag := ⟨0, 0, 0, 0⟩, acc := P.checksum.init, stored := 0,
      errKind := .none, errTag := ⟨0, 0, 0, 0⟩ })) ∧
  params.checksum.init = 0xFFFFFFFF

/-- The machine's first state meets the invariants (10_state.md R34, R49), both units as R50 and R51 leave them, for every
CHECKSUM. That a model starts there, not before a first reset, is the model's choice among R52's two (log entry 1). -/
def Obligations.ResetMeetsInvariants : Prop :=
  MachineInv State.reset ∧ ∀ P : Config.Params, MachineInv (State.resetWith P)

/-- 42_host_operations.md R192, 60_exceptions.md R218: the token DF.START in IDLE, for every MAXW and MAXH; in any other
state it changes nothing (R201, log entry 9); and at the machine's default limits (log entry 4) "the refusal arm is empty":
whatever the state, the token answers a next state. -/
def Obligations.StartByCases : Prop :=
  (∀ (P : Config.Params) (w h : Word) (s : State), s.df.state = .idle →
    (w = 0 ∨ h = 0 → deliver P (.dfStart w h) s = .next (s.withDf
      { s.df with state := .fault, errKind := .invalidDimensions, errRow := 0, errValue := 0 })) ∧
    (w ≠ 0 → h ≠ 0 → P.maxW.toNat < w.toNat ∨ P.maxH.toNat < h.toNat →
      deliver P (.dfStart w h) s = .refused (.dimensionsBeyondLimits w h)) ∧
    (w ≠ 0 → h ≠ 0 → w.toNat ≤ P.maxW.toNat → h.toNat ≤ P.maxH.toNat →
      deliver P (.dfStart w h) s = .next (s.withDf
        { s.df with width := w, height := h, row := 0, col := 0, state := .select }))) ∧
  (∀ (P : Config.Params) (w h : Word) (s : State), s.df.state ≠ .idle → deliver P (.dfStart w h) s = .next s) ∧
  ∀ (w h : Word) (s : State), ∃ d, deliver params (.dfStart w h) s = .next (s.withDf d)

/-- 42_host_operations.md R201, R193, R194, R198, R199: a token outside its legal states changes neither unit
(log entry 9). -/
def Obligations.IllegalTokensIgnored : Prop :=
  ∀ (P : Config.Params) (s : State),
    (s.df.state ≠ .idle → ∀ w h, deliver P (.dfStart w h) s = .next s) ∧
    (s.df.state ≠ .select → s.df.state ≠ .data → ∀ b, deliver P (.dfPush b) s = .next s) ∧
    (s.df.state ≠ .select → s.df.state ≠ .data → deliver P .dfEos s = .next s) ∧
    (s.ic.phase = .fault → ∀ x, deliver P (.icPush x) s = .next s) ∧
    (s.ic.phase = .fault → deliver P .icEos s = .next s) ∧
    (s.df.state ≠ .done → ∀ a, ∃ t, deliver P (.dfReadOut a) s = .next t ∧ t.df = s.df ∧ t.ic = s.ic)

/-! ### The row operations -/

/-- 40_defilter_rows.md R122: the three neighbors, with the zero boundary, wherever the entries the mux reads have
values. -/
def Obligations.NeighborMuxByPosition : Prop :=
  ∀ (d : Df) (n : Neighbors), neighborMux d = .next n →
    valueOr0 (decide (d.col.toNat < 3)) d.cur (d.col.toNat - 3) n.left ∧
    valueOr0 (decide (d.row = 0)) d.prior d.col.toNat n.above ∧
    valueOr0 (decide (d.row = 0) || decide (d.col.toNat < 3)) d.prior (d.col.toNat - 3) n.aboveLeft

/-- 40_defilter_rows.md R124: the average is the exact sum halved, never a sum reduced modulo 256. -/
def Obligations.AverageIsExactHalf : Prop := ∀ a b : Byte, (avg a b).toNat = (a.toNat + b.toNat) / 2

/-- 40_defilter_rows.md R125: Paeth picks left if it is at least as close to `p` as both others, else above if it is at
least as close as above-left, else above-left; so it is one of its inputs and none is closer. -/
def Obligations.PaethPicksNearest : Prop :=
  ∀ a b c : Byte, ∀ p : Int, p = a.toNat + b.toNat - c.toNat →
    ((|p - a.toNat| ≤ |p - b.toNat| ∧ |p - a.toNat| ≤ |p - c.toNat|) → paeth a b c = a) ∧
    (¬ (|p - a.toNat| ≤ |p - b.toNat| ∧ |p - a.toNat| ≤ |p - c.toNat|) →
      |p - b.toNat| ≤ |p - c.toNat| → paeth a b c = b) ∧
    (¬ (|p - a.toNat| ≤ |p - b.toNat| ∧ |p - a.toNat| ≤ |p - c.toNat|) →
      ¬ |p - b.toNat| ≤ |p - c.toNat| → paeth a b c = c) ∧
    (paeth a b c = a ∨ paeth a b c = b ∨ paeth a b c = c) ∧
    |p - (paeth a b c).toNat| ≤ |p - a.toNat| ∧ |p - (paeth a b c).toNat| ≤ |p - b.toNat| ∧
    |p - (paeth a b c).toNat| ≤ |p - c.toNat|

/-- 40_defilter_rows.md R126, D25: an 11-bit signed data path computes the same Paeth predictor. -/
def Obligations.PaethInElevenBits : Prop :=
  ∀ a b c : Byte,
    let ext := fun v : Byte => v.zeroExtend 11
    let dist := fun x y : BitVec 11 => if (x - y).slt 0 then y - x else x - y
    let p := ext a + ext b - ext c
    paeth a b c =
      if (dist p (ext a)).sle (dist p (ext b)) && (dist p (ext a)).sle (dist p (ext c)) then a
      else if (dist p (ext b)).sle (dist p (ext c)) then b
      else c

/-- 40_defilter_rows.md R127: the byte reconstructor adds modulo 256. -/
def Obligations.ReconstructAddsModulo256 : Prop :=
  ∀ f p : Byte, (reconstruct f p).toNat = (f.toNat + p.toNat) % 256

/-- 40_defilter_rows.md R121: the selector step; where DF's invariant holds, at least 3 data steps follow a legal one. -/
def Obligations.SelectorStepByByte : Prop :=
  ∀ (P : Config.Params) (s : State) (b : Byte), s.df.state = .select →
    (DfInv s.df → 3 ≤ Config.stride s.df.width) ∧
    (b.toNat ≤ 4 → deliver P (.dfPush b) s = .next (s.withDf { s.df with sel := b, col := 0, state := .data })) ∧
    (4 < b.toNat → deliver P (.dfPush b) s = .next (s.withDf (selectorFault b s.df)))

/-- 40_defilter_rows.md R128, R129: a data step in DATA, with the neighbors that the mux reads before it, writes
`r = (f + pred) mod 256` to CUR and to DF.OUT at `ROW * S + COL` and moves on: one column, or, at the end of the row, to
the next row with PRIOR the row just completed. Nothing else changes. Where DF's invariant holds the mux reads, so the
data step never faults. -/
def Obligations.DataStepStoresAndAdvances : Prop :=
  (∀ d : Df, DfInv d → d.state = .data → d.sel.toNat ≤ 4 ∧ ∃ n, neighborMux d = .next n) ∧
  ∀ (P : Config.Params) (s : State) (f : Byte) (n : Neighbors), s.df.state = .data → s.df.sel.toNat ≤ 4 →
    neighborMux s.df = .next n → ∃ e, deliver P (.dfPush f) s = .next (s.withDf e) ∧
      (∀ i, e.cur.read i = if i = s.df.col.toNat then some (f + pred s.df.sel n) else s.df.cur.read i) ∧
      (∀ a, e.out.read a = if a = s.df.row.toNat * Config.stride s.df.width + s.df.col.toNat
        then some (f + pred s.df.sel n) else s.df.out.read a) ∧
      e.width = s.df.width ∧ e.height = s.df.height ∧ e.sel = s.df.sel ∧ e.errKind = s.df.errKind ∧
      e.errRow = s.df.errRow ∧ e.errValue = s.df.errValue ∧
      (s.df.col.toNat + 1 < Config.stride s.df.width →
        e.state = .data ∧ e.row = s.df.row ∧ e.col = s.df.col + 1 ∧ e.prior = s.df.prior) ∧
      (s.df.col.toNat + 1 = Config.stride s.df.width →
        e.row = s.df.row + 1 ∧ e.col = 0 ∧
        (∀ i, e.prior.read i = if i < Config.stride s.df.width then e.cur.read i else none) ∧
        (s.df.row.toNat + 1 < s.df.height.toNat → e.state = .select) ∧
        (s.df.row.toNat + 1 = s.df.height.toNat → e.state = .done))

/-- 40_defilter_rows.md R130: ROW.NONE leaves the filtered bytes unchanged; its frame is RowTaken. -/
def Obligations.RowNoneCopies : Prop :=
  ∀ (s : State) (f : List Byte), RowReady f s.df →
    ∃ e, exec (.rowNone f) s = .next (s.withDf e) ∧ RowTaken 0 s.df e ∧
      ∀ i, i < Config.stride s.df.width →
        e.out.read (s.df.row.toNat * Config.stride s.df.width + i) = some (f.getD i 0)

/-- 40_defilter_rows.md R131: ROW.SUB adds the reconstructed byte three positions to the left. -/
def Obligations.RowSubAddsLeft : Prop :=
  ∀ (s : State) (f : List Byte), RowReady f s.df →
    ∃ e, exec (.rowSub f) s = .next (s.withDf e) ∧ RowTaken 1 s.df e ∧
      ∀ i, i < Config.stride s.df.width → ∃ left,
        valueOr0 (decide (i < 3)) e.out (s.df.row.toNat * Config.stride s.df.width + i - 3) left ∧
        e.out.read (s.df.row.toNat * Config.stride s.df.width + i) = some (f.getD i 0 + left)

/-- 40_defilter_rows.md R132: ROW.UP adds the byte above. -/
def Obligations.RowUpAddsAbove : Prop :=
  ∀ (s : State) (f : List Byte), RowReady f s.df →
    ∃ e, exec (.rowUp f) s = .next (s.withDf e) ∧ RowTaken 2 s.df e ∧
      ∀ i, i < Config.stride s.df.width → ∃ above,
        valueOr0 (decide (s.df.row = 0)) s.df.prior i above ∧
        e.out.read (s.df.row.toNat * Config.stride s.df.width + i) = some (f.getD i 0 + above)

/-- 40_defilter_rows.md R133: ROW.AVG adds the exact half of left plus above. -/
def Obligations.RowAvgAddsAverage : Prop :=
  ∀ (s : State) (f : List Byte), RowReady f s.df →
    ∃ e, exec (.rowAvg f) s = .next (s.withDf e) ∧ RowTaken 3 s.df e ∧
      ∀ i, i < Config.stride s.df.width → ∃ left above,
        valueOr0 (decide (i < 3)) e.out (s.df.row.toNat * Config.stride s.df.width + i - 3) left ∧
        valueOr0 (decide (s.df.row = 0)) s.df.prior i above ∧
        e.out.read (s.df.row.toNat * Config.stride s.df.width + i) =
          some (f.getD i 0 + BitVec.ofNat 8 ((left.toNat + above.toNat) / 2))

/-- 40_defilter_rows.md R134: ROW.PAETH adds the Paeth predictor of left, above and above-left. -/
def Obligations.RowPaethAddsPaeth : Prop :=
  ∀ (s : State) (f : List Byte), RowReady f s.df →
    ∃ e, exec (.rowPaeth f) s = .next (s.withDf e) ∧ RowTaken 4 s.df e ∧
      ∀ i, i < Config.stride s.df.width → ∃ left above aboveLeft,
        valueOr0 (decide (i < 3)) e.out (s.df.row.toNat * Config.stride s.df.width + i - 3) left ∧
        valueOr0 (decide (s.df.row = 0)) s.df.prior i above ∧
        valueOr0 (decide (s.df.row = 0) || decide (i < 3)) s.df.prior (i - 3) aboveLeft ∧
        e.out.read (s.df.row.toNat * Config.stride s.df.width + i) =
          some (f.getD i 0 + paeth left above aboveLeft)

/-- 40_defilter_rows.md R135, 60_exceptions.md R217, R222: each of the seven illegal rows of the table, run in SELECT,
raises InvalidFilterSelector with the whole selector byte, above 4, and changes nothing but STATE and the error
record. -/
def Obligations.IllegalSelectorsRaise : Prop :=
  ∀ s : State, s.df.state = .select →
    exec .rowIllegal05 s = .next (s.withDf (selectorFault 5 s.df)) ∧
    (∀ low : BitVec 1, ∃ v : Byte, v.toNat = 0x06 + low.toNat ∧
      exec (.rowIllegal0607 low) s = .next (s.withDf (selectorFault v s.df))) ∧
    (∀ low : BitVec 3, ∃ v : Byte, v.toNat = 0x08 + low.toNat ∧
      exec (.rowIllegal080F low) s = .next (s.withDf (selectorFault v s.df))) ∧
    (∀ low : BitVec 4, ∃ v : Byte, v.toNat = 0x10 + low.toNat ∧
      exec (.rowIllegal101F low) s = .next (s.withDf (selectorFault v s.df))) ∧
    (∀ low : BitVec 5, ∃ v : Byte, v.toNat = 0x20 + low.toNat ∧
      exec (.rowIllegal203F low) s = .next (s.withDf (selectorFault v s.df))) ∧
    (∀ low : BitVec 6, ∃ v : Byte, v.toNat = 0x40 + low.toNat ∧
      exec (.rowIllegal407F low) s = .next (s.withDf (selectorFault v s.df))) ∧
    (∀ low : BitVec 7, ∃ v : Byte, v.toNat = 0x80 + low.toNat ∧
      exec (.rowIllegal80FF low) s = .next (s.withDf (selectorFault v s.df)))

/-- 42_host_operations.md R193, R201: a row record's bytes that reach DF outside a run change nothing at all
(log entries 9, 10). -/
def Obligations.RowRecordsIgnoredOutsideRun : Prop :=
  ∀ (s : State) (i : Instr), i.unit = .df → s.df.state ≠ .select → s.df.state ≠ .data → exec i s = .next s

/-- The frame of every row record in every state with the invariant, mid-row too: IC, what the host holds, WIDTH and HEIGHT
are unchanged, and so is every byte of DF.OUT but those at as many addresses as the record has bytes, from the position it
started at (40_defilter_rows.md R128, R138; 20_memory.md R70; 42 R203). -/
def Obligations.RowRecordFrame : Prop :=
  ∀ (s t : State) (i : Instr), i.unit = .df → DfInv s.df → exec i s = .next t →
    t.ic = s.ic ∧ t.host = s.host ∧ t.df.width = s.df.width ∧ t.df.height = s.df.height ∧
    ∀ a, a < outAddress s.df ∨ outAddress s.df + (encode i).length ≤ a → t.df.out.read a = s.df.out.read a

/-- 40_defilter_rows.md R134, R132: in row 0 ROW.PAETH acts as ROW.SUB and ROW.UP as ROW.NONE, but for the selector SEL
holds. -/
def Obligations.FirstRowEquivalences : Prop :=
  ∀ (s : State) (f : List Byte), RowReady f s.df → s.df.row = 0 →
    (∃ e e', exec (.rowPaeth f) s = .next (s.withDf e) ∧ exec (.rowSub f) s = .next (s.withDf e') ∧
      { e with sel := 0 } = { e' with sel := 0 }) ∧
    (∃ e e', exec (.rowUp f) s = .next (s.withDf e) ∧ exec (.rowNone f) s = .next (s.withDf e') ∧
      { e with sel := 0 } = { e' with sel := 0 })

/-- 40_defilter_rows.md R140: the three channels of a row are decoded independently. Two runs of one operation that agree
on channel `k` of the filtered bytes and of the previous row agree on channel `k` of the result. -/
def Obligations.ChannelsIndependent : Prop :=
  ∀ (s s' : State) (sel : Byte) (f f' : List Byte) (k : Nat), sel.toNat ≤ 4 → RowReady f s.df → RowReady f' s'.df →
    s'.df.width = s.df.width → (s'.df.row = 0 ↔ s.df.row = 0) →
    (∀ i, i < Config.stride s.df.width → i % 3 = k →
      f'.getD i 0 = f.getD i 0 ∧ s'.df.prior.read i = s.df.prior.read i) →
    ∃ e e', exec (rowInstr sel f) s = .next (s.withDf e) ∧ exec (rowInstr sel f') s' = .next (s'.withDf e') ∧
      ∀ i, i < Config.stride s.df.width → i % 3 = k →
        e'.out.read (s'.df.row.toNat * Config.stride s.df.width + i) =
          e.out.read (s.df.row.toNat * Config.stride s.df.width + i)

/-- 40_defilter_rows.md R140: the result of a row does not depend on HEIGHT. -/
def Obligations.RowIgnoresHeight : Prop :=
  ∀ (s : State) (sel : Byte) (f : List Byte) (h : Word), sel.toNat ≤ 4 → RowReady f s.df →
    ∃ e e', exec (rowInstr sel f) s = .next (s.withDf e) ∧
      exec (rowInstr sel f) (s.withDf { s.df with height := h }) = .next (s.withDf e') ∧
      e'.out = e.out ∧ e'.prior = e.prior ∧ e'.cur = e.cur ∧ e'.row = e.row

/-- 40_defilter_rows.md R141: for every selector, the filtered bytes obtained by subtracting the predictor from a target
row decode back to that row. -/
def Obligations.FilteredRowDecodesBack : Prop :=
  ∀ (s : State) (sel : Byte) (f target : List Byte) (n : Nat → Neighbors), sel.toNat ≤ 4 → RowReady f s.df →
    target.length = Config.stride s.df.width →
    (∀ i, i < Config.stride s.df.width →
      (n i).left = (if i < 3 then 0 else target.getD (i - 3) 0) ∧
      valueOr0 (decide (s.df.row = 0)) s.df.prior i (n i).above ∧
      valueOr0 (decide (s.df.row = 0) || decide (i < 3)) s.df.prior (i - 3) (n i).aboveLeft ∧
      f.getD i 0 = target.getD i 0 - pred sel (n i)) →
    ∃ e, exec (rowInstr sel f) s = .next (s.withDf e) ∧
      ∀ i, i < Config.stride s.df.width →
        e.out.read (s.df.row.toNat * Config.stride s.df.width + i) = some (target.getD i 0)

/-- 40_defilter_rows.md R139: the closed form of a whole run, whatever MAXW and MAXH let it start (at the defaults of log
entry 4, every `w` and `h` but 0). From any state, DF.RESET, DF.START(w, h), the pushes of `h` rows with legal selectors and
DF.EOS end in DONE with no fault, DF.OUT the unique solution of R139's equations, and every other byte of DF.OUT as it
was. -/
def Obligations.WholeImageClosedForm : Prop :=
  ∀ (P : Config.Params) (s : State) (w h : Word) (rows : List (Byte × List Byte)), w ≠ 0 → h ≠ 0 →
    w.toNat ≤ P.maxW.toNat → h.toNat ≤ P.maxH.toNat → rows.length = h.toNat →
    (∀ r ∈ rows, r.1.toNat ≤ 4 ∧ r.2.length = Config.stride w) →
    ∃ e, deliverAll P (.dfReset :: .dfStart w h :: (dfPushes (programBytes rows) ++ [.dfEos])) s = .next (s.withDf e) ∧
      e.state = .done ∧ e.row = h ∧ e.col = 0 ∧ e.errKind = .none ∧
      (∀ y, y < h.toNat → ∀ i, i < Config.stride w → ∃ n : Neighbors,
        valueOr0 (decide (i < 3)) e.out (y * Config.stride w + i - 3) n.left ∧
        valueOr0 (decide (y = 0)) e.out ((y - 1) * Config.stride w + i) n.above ∧
        valueOr0 (decide (y = 0) || decide (i < 3)) e.out ((y - 1) * Config.stride w + i - 3) n.aboveLeft ∧
        e.out.read (y * Config.stride w + i) =
          some ((rows.getD y (0, [])).2.getD i 0 + pred (rows.getD y (0, [])).1 n)) ∧
      (∀ a, h.toNat * Config.stride w ≤ a → e.out.read a = s.df.out.read a)

/-! ### Position, invariants, progress -/

/-- 10_state.md R26: an accepted push that raises nothing moves the position forward by exactly one byte, and the run is
DONE exactly when the whole program has been taken. -/
def Obligations.PushAdvancesByOne : Prop :=
  ∀ (d e : Df) (b : Byte), DfInv d → d.state = .select ∨ d.state = .data → dfPush b d = .next e → e.state ≠ .fault →
    consumed e = consumed d + 1 ∧ (e.state = .done ↔ consumed e = programLength d)

/-- 40_defilter_rows.md R137: from any point of a run, DF takes exactly the bytes that remain: with fewer it is not DONE,
with that many or more it has ended, in DONE or by a fault (bytes beyond the last row are ignored, log entry 10). -/
def Obligations.RunEndsAfterWholeProgram : Prop :=
  ∀ (P : Config.Params) (s : State) (bs : List Byte), DfInv s.df → s.df.state = .select ∨ s.df.state = .data →
    ∃ e, deliverAll P (dfPushes bs) s = .next (s.withDf e) ∧
      (consumed s.df + bs.length < programLength s.df → e.state ≠ .done) ∧
      (programLength s.df ≤ consumed s.df + bs.length → e.state = .done ∨ e.state = .fault)

/-- 20_memory.md R70: a data step writes the output at the current address, and the next address is one higher. -/
def Obligations.OutputAddressesRise : Prop :=
  ∀ (d e : Df) (f : Byte), DfInv d → d.state = .data → dfPush f d = .next e →
    outAddress e = outAddress d + 1 ∧ (e.out.read (outAddress d)).isSome = true ∧
    ∀ a, a ≠ outAddress d → e.out.read a = d.out.read a

/-- 10_state.md R34, R49: every step keeps the invariants of both units, with any OPEN parameters too. -/
def Obligations.StepKeepsInvariants : Prop :=
  ∀ s t : State, MachineInv s →
    (step s = .next t → MachineInv t) ∧ ∀ P : Config.Params, stepWith P s = .next t → MachineInv t

/-- 10_state.md R34, R49 "true after every step": every single token keeps the invariants of both units. -/
def Obligations.TokenKeepsInvariants : Prop :=
  ∀ (P : Config.Params) (s u : State) (t : Token), MachineInv s → deliver P t s = .next u → MachineInv u

/-- 42_host_operations.md R202, 40_defilter_rows.md R128 "A data step never faults", 10_state.md R50: where the invariants
hold and the host has a token, the step answers a next state: no model fault, no read of an unwritten entry (log entries 2,
7, 12), and, at the default limits, no refused DF.START (log entry 4). With smaller limits a refused DF.START (R192) is the
only stop. Illegal tokens answer because R201 lets a model ignore them, or hand over an unspecified value (log entries 8, 9,
10). -/
def Obligations.StepNeverStopsWithToken : Prop :=
  ∀ s : State, MachineInv s → s.host.pending ≠ [] → (∃ t, step s = .next t) ∧
    ∀ P : Config.Params, (∃ t, stepWith P s = .next t) ∨
      ∃ w h rest, s.host.pending = .dfStart w h :: rest ∧ s.df.state = .idle ∧
        (P.maxW.toNat < w.toNat ∨ P.maxH.toNat < h.toNat) ∧ stepWith P s = .refused (.dimensionsBeyondLimits w h)

/-- 10_state.md R21, R22: no token but DF.START in IDLE and DF.RESET changes WIDTH or HEIGHT. -/
def Obligations.DimensionsFixedDuringRun : Prop :=
  ∀ (P : Config.Params) (s u : State) (t : Token), deliver P t s = .next u → t ≠ .dfReset →
    (∀ w h, t = .dfStart w h → s.df.state ≠ .idle) → u.df.width = s.df.width ∧ u.df.height = s.df.height

/-- 10_state.md R28: exactly one of IDLE, BUSY, DONE, FAULT. -/
def Obligations.StatusFlagsExclusive : Prop :=
  ∀ d : Df, ([dfIdle d, dfBusy d, dfDone d, dfFault d].filter id).length = 1

/-! ### Faults -/

/-- 42_host_operations.md R194, 60_exceptions.md R216 (log entry 11): DF.EOS by state. -/
def Obligations.DfEosByState : Prop :=
  ∀ (P : Config.Params) (s : State),
    (s.df.state = .select ∨ s.df.state = .data → deliver P .dfEos s = .next (s.withDf
      { s.df with state := .fault, errKind := .truncatedInput, errRow := 0, errValue := 0 })) ∧
    (s.df.state = .done ∨ s.df.state = .fault ∨ s.df.state = .idle → deliver P .dfEos s = .next s)

/-- 42_host_operations.md R199, 41_integrity_check.md R175: IC.EOS by phase. -/
def Obligations.IcEosByPhase : Prop :=
  ∀ (P : Config.Params) (s : State),
    (s.ic.phase = .fault ∨ (s.ic.phase = .len ∧ s.ic.cnt = 0) → deliver P .icEos s = .next s) ∧
    (s.ic.phase ≠ .fault → ¬ (s.ic.phase = .len ∧ s.ic.cnt = 0) → deliver P .icEos s = .next (s.withIc
      { s.ic with phase := .fault, errKind := .truncatedInput, errTag := ⟨0, 0, 0, 0⟩ }))

/-- 60_exceptions.md R222: a fault is precise. The token that takes a unit into FAULT changes nothing of it but STATE or
PHASE and the error record, and nothing of the other unit. For IC's ChecksumMismatch that STORED and CNT keep their values
takes R222 over the writes R168 lists and over 00_scope.md R9 "dropped unless the rule lists them" (DEDUCED, log entry 18). -/
def Obligations.FaultsArePrecise : Prop :=
  ∀ (P : Config.Params) (s u : State) (t : Token), deliver P t s = .next u →
    (s.df.state ≠ .fault → u.df.state = .fault → u.ic = s.ic ∧ u.host = s.host ∧
      u.df = { s.df with state := .fault, errKind := u.df.errKind, errRow := u.df.errRow, errValue := u.df.errValue }) ∧
    (s.ic.phase ≠ .fault → u.ic.phase = .fault → u.df = s.df ∧ u.host = s.host ∧
      u.ic = { s.ic with phase := .fault, errKind := u.ic.errKind, errTag := u.ic.errTag })

/-- 60_exceptions.md R225: which cause a token can raise, and from which state, with the recorded fields. -/
def Obligations.OneCausePerToken : Prop :=
  ∀ (P : Config.Params) (s u : State) (t : Token), deliver P t s = .next u →
    (s.df.state ≠ .fault → u.df.state = .fault →
      (∃ b, t = .dfPush b ∧ s.df.state = .select ∧ 4 < b.toNat ∧ u.df.errKind = .invalidFilterSelector ∧
        u.df.errRow = s.df.row ∧ u.df.errValue = b) ∨
      (t = .dfEos ∧ (s.df.state = .select ∨ s.df.state = .data) ∧ u.df.errKind = .truncatedInput) ∨
      (∃ w h, t = .dfStart w h ∧ s.df.state = .idle ∧ (w = 0 ∨ h = 0) ∧ u.df.errKind = .invalidDimensions)) ∧
    (s.ic.phase ≠ .fault → u.ic.phase = .fault →
      (∃ x, t = .icPush x ∧ s.ic.phase = .crc ∧ u.ic.errKind = .checksumMismatch ∧ u.ic.errTag = s.ic.tag) ∨
      (t = .icEos ∧ midRecord s.ic = true ∧ u.ic.errKind = .truncatedInput))

/-- 60_exceptions.md R224: FAULT is sticky. Whatever tokens come, without the unit's RESET a faulted unit keeps all of its
state, the first error record among it. -/
def Obligations.FaultIsSticky : Prop :=
  ∀ (P : Config.Params) (ts : List Token) (s : State),
    (s.df.state = .fault → .dfReset ∉ ts → ∃ u, deliverAll P ts s = .next u ∧ u.df = s.df) ∧
    (s.ic.phase = .fault → .icReset ∉ ts → ∀ u, deliverAll P ts s = .next u → u.ic = s.ic)

/-! ### The two units -/

/-- 42_host_operations.md R203: tokens to one unit never change the other, and "the result of each unit depends only on
its own token sequence": any interleaving leaves each unit as its own tokens alone do. -/
def Obligations.InterleavingIrrelevant : Prop :=
  (∀ (P : Config.Params) (s u : State) (t : Token), deliver P t s = .next u →
    (t.isDf = true → u.ic = s.ic ∧ u.host.verdicts = s.host.verdicts) ∧ (t.isDf = false → u.df = s.df)) ∧
  ∀ (P : Config.Params) (ts : List Token) (s t : State), deliverAll P ts s = .next t →
    (∃ u, deliverAll P (ts.filter Token.isDf) s = .next u ∧ u.df = t.df) ∧
    (∃ u, deliverAll P (ts.filter fun x => !x.isDf) s = .next u ∧ u.ic = t.ic ∧ u.host.verdicts = t.host.verdicts)

/-! ### The block check -/

/-- 41_integrity_check.md R165 to R168: one pushed byte in each phase, for every CHECKSUM. On a mismatch STORED and CNT keep
their values, as 60_exceptions.md R222 says of every write of a raising step (over the writes R168 lists, log entry 18); with
REM = 0 in PAYLOAD, which no run reaches, the step wraps REM (log entry 12). -/
def Obligations.BlockPhaseSteps : Prop :=
  ∀ (P : Config.Params) (x : Byte) (c : Ic),
    (c.phase = .len → c.cnt.toNat < 3 →
      icPush P x c = ({ c with len := (c.len <<< 8) + x.zeroExtend 32, cnt := c.cnt + 1 }, none)) ∧
    (c.phase = .len → c.cnt = 3 → icPush P x c =
      ({ c with len := (c.len <<< 8) + x.zeroExtend 32, cnt := 0, acc := P.checksum.init, phase := .tag }, none)) ∧
    (c.phase = .tag → c.cnt.toNat < 3 → icPush P x c =
      ({ c with tag := tagSet c.tag c.cnt x, acc := P.checksum.update c.acc x, cnt := c.cnt + 1 }, none)) ∧
    (c.phase = .tag → c.cnt = 3 → icPush P x c =
      ({ c with
        tag := { c.tag with b3 := x }, acc := P.checksum.update c.acc x, cnt := 0, rem := c.len, stored := 0,
        phase := if c.len = 0 then .crc else .payload }, none)) ∧
    (c.phase = .payload → icPush P x c =
      ({ c with
        acc := P.checksum.update c.acc x, rem := c.rem - 1, phase := if c.rem = 1 then .crc else .payload }, none)) ∧
    (c.phase = .crc → c.cnt.toNat < 3 →
      icPush P x c = ({ c with stored := (c.stored <<< 8) + x.zeroExtend 32, cnt := c.cnt + 1 }, none)) ∧
    (c.phase = .crc → c.cnt = 3 → P.checksum.final c.acc = (c.stored <<< 8) + x.zeroExtend 32 →
      icPush P x c = ({ c with stored := (c.stored <<< 8) + x.zeroExtend 32, cnt := 0, phase := .len },
        some ⟨c.tag, c.len⟩)) ∧
    (c.phase = .crc → c.cnt = 3 → P.checksum.final c.acc ≠ (c.stored <<< 8) + x.zeroExtend 32 →
      icPush P x c = ({ c with phase := .fault, errKind := .checksumMismatch, errTag := c.tag }, none))

/-- 30_encoding.md R97, 41_integrity_check.md R165: four length bytes at the record boundary are assembled big-endian,
whatever LEN held. -/
def Obligations.LengthAssembledBigEndian : Prop :=
  ∀ (P : Config.Params) (b0 b1 b2 b3 : Byte) (c : Ic), c.phase = .len → c.cnt = 0 →
    ∃ e, icPushAll P [b0, b1, b2, b3] c = (e, []) ∧
      e.len.toNat = b0.toNat * 2 ^ 24 + b1.toNat * 2 ^ 16 + b2.toNat * 2 ^ 8 + b3.toNat ∧
      e.phase = .tag ∧ e.cnt = 0 ∧ e.acc = P.checksum.init ∧ e.tag = c.tag ∧ e.stored = c.stored ∧ e.rem = c.rem ∧
      e.errKind = c.errKind ∧ e.errTag = c.errTag

/-- 10_state.md R45, R49 (b), for every CHECKSUM: from the record boundary, after the length bytes, the tag and any part
of the payload, the accumulator has absorbed exactly those tag and payload bytes, and REM counts those to come. -/
def Obligations.AccumulatorAbsorbsTagAndPayload : Prop :=
  ∀ (P : Config.Params) (length : Word) (tag : Tag) (part : List Byte) (c : Ic), c.phase = .len → c.cnt = 0 →
    part.length ≤ length.toNat →
    ∃ e, icPushAll P (bytesBE length ++ tagBytes tag ++ part) c = (e, []) ∧
      e.acc = absorb P.checksum P.checksum.init (tagBytes tag ++ part) ∧ e.len = length ∧ e.tag = tag ∧
      e.rem.toNat = length.toNat - part.length ∧ e.cnt = 0 ∧
      e.phase = if part.length < length.toNat then .payload else .crc

/-- 41_integrity_check.md R160, R169, R161, with any OPEN parameters: CHKBLK at the record boundary gives one verdict and the
boundary again if CHECKSUM(tag ‖ payload) is the stored value, else ChecksumMismatch with the record's tag and no
verdict (the list of verdicts: log entry 13). -/
def Obligations.BlockCheckForEveryChecksum : Prop :=
  ∀ (P : Config.Params) (length : Word) (tag : Tag) (payload : List Byte) (crc : Word) (s : State),
    s.ic.phase = .len → s.ic.cnt = 0 → payload.length = length.toNat →
    (checksum P.checksum (tagBytes tag ++ payload) = crc →
      ∃ t, execWith P (.chkblk length tag payload crc) s = .next t ∧ t.df = s.df ∧
        t.host.verdicts = s.host.verdicts ++ [⟨tag, length⟩] ∧
        t.ic.phase = .len ∧ t.ic.cnt = 0 ∧ t.ic.errKind = s.ic.errKind ∧ t.ic.errTag = s.ic.errTag) ∧
    (checksum P.checksum (tagBytes tag ++ payload) ≠ crc →
      ∃ t, execWith P (.chkblk length tag payload crc) s = .next t ∧ t.df = s.df ∧
        t.host.verdicts = s.host.verdicts ∧
        t.ic.phase = .fault ∧ t.ic.errKind = .checksumMismatch ∧ t.ic.errTag = tag)

/-- 41_integrity_check.md R169, R170, R171: CHKBLK at the record boundary, the machine's checksum being the default one (log
entry 3): every register of IC after it, the verdict, and the frame. On a mismatch the last byte's writes to STORED and CNT
are dropped (60_exceptions.md R222, log entry 18): CNT is 3 and STORED has the first three stored bytes shifted in, behind
the zeros that phase TAG left. -/
def Obligations.ChkblkChecksRecord : Prop :=
  ∀ (s : State) (length : Word) (tag : Tag) (payload : List Byte) (crc : Word),
    s.ic.phase = .len → s.ic.cnt = 0 → payload.length = length.toNat →
    ∃ t, exec (.chkblk length tag payload crc) s = .next t ∧
      t.df = s.df ∧ t.host.pending = s.host.pending ∧ t.host.replies = s.host.replies ∧
      t.host.freeCount = s.host.freeCount ∧
      t.ic.len = length ∧ t.ic.rem = 0 ∧ t.ic.tag = tag ∧
      t.ic.acc = absorb crc32 crc32.init (tagBytes tag ++ payload) ∧
      (checksum crc32 (tagBytes tag ++ payload) = crc →
        t.ic.phase = .len ∧ t.ic.cnt = 0 ∧ t.ic.stored = crc ∧ t.ic.errKind = s.ic.errKind ∧
        t.ic.errTag = s.ic.errTag ∧ t.host.verdicts = s.host.verdicts ++ [⟨tag, length⟩]) ∧
      (checksum crc32 (tagBytes tag ++ payload) ≠ crc →
        t.ic.phase = .fault ∧ t.ic.cnt = 3 ∧ t.ic.stored.toNat = crc.toNat / 256 ∧
        t.ic.errKind = .checksumMismatch ∧ t.ic.errTag = tag ∧ t.host.verdicts = s.host.verdicts)

/-- The frame of CHKBLK in every state, mid-record too: DF and the host's tokens and replies are unchanged, and verdicts
are only added (42_host_operations.md R203, 41_integrity_check.md R170). -/
def Obligations.ChkblkFrame : Prop :=
  ∀ (s : State) (length : Word) (tag : Tag) (payload : List Byte) (crc : Word),
    ∃ t, exec (.chkblk length tag payload crc) s = .next t ∧
      t.df = s.df ∧ t.host.pending = s.host.pending ∧ t.host.replies = s.host.replies ∧
      t.host.freeCount = s.host.freeCount ∧ ∃ vs, t.host.verdicts = s.host.verdicts ++ vs

/-- 41_integrity_check.md R162, R171, of the default CHECKSUM (log entry 3): corrupting any single payload byte of a good
block causes ChecksumMismatch. -/
def Obligations.CorruptedPayloadDetected : Prop :=
  ∀ (s : State) (length : Word) (tag : Tag) (before after : List Byte) (good bad : Byte),
    s.ic.phase = .len → s.ic.cnt = 0 → (before ++ good :: after).length = length.toNat → bad ≠ good →
    ∃ t, exec (.chkblk length tag (before ++ bad :: after)
        (checksum crc32 (tagBytes tag ++ (before ++ good :: after)))) s = .next t ∧
      t.ic.phase = .fault ∧ t.ic.errKind = .checksumMismatch ∧ t.ic.errTag = tag ∧
      t.host.verdicts = s.host.verdicts

/-- 41_integrity_check.md R162, of the default CHECKSUM (93_implementation_defined.md G3; log entry 3): two messages of equal
length that differ in exactly one byte have different checksums. -/
def Obligations.ChecksumSeparatesSingleByte : Prop :=
  ∀ (before after : List Byte) (x y : Byte), x ≠ y →
    checksum crc32 (before ++ x :: after) ≠ checksum crc32 (before ++ y :: after)

/-- 30_encoding.md R108: the record of the pseudo-instruction chkblk.ok is accepted, at the default CHECKSUM (log entry 3)
and with any other. -/
def Obligations.ChkblkOkAccepted : Prop :=
  ∀ (s : State) (tag : Tag) (payload : List Byte), s.ic.phase = .len → s.ic.cnt = 0 → payload.length < 2 ^ 32 →
    (∃ t, exec (chkblkOk params tag payload) s = .next t ∧ atBoundary t.ic = true ∧
      t.host.verdicts = s.host.verdicts ++ [⟨tag, BitVec.ofNat 32 payload.length⟩]) ∧
    ∀ P : Config.Params, ∃ t, execWith P (chkblkOk P tag payload) s = .next t ∧ atBoundary t.ic = true ∧
      t.host.verdicts = s.host.verdicts ++ [⟨tag, BitVec.ofNat 32 payload.length⟩]

/-! ### What the host reads -/

/-- 42_host_operations.md R195, R200: the status reads hand over the registers and change nothing of either unit. -/
def Obligations.StatusReadsChangeNothing : Prop :=
  ∀ (P : Config.Params) (s : State),
    deliver P .dfReadStatus s = .next (s.reply (.dfStatus
      { state := s.df.state, busy := decide (s.df.state = .select ∨ s.df.state = .data),
        done := decide (s.df.state = .done), fault := decide (s.df.state = .fault), width := s.df.width,
        height := s.df.height, row := s.df.row, col := s.df.col, errKind := s.df.errKind, errRow := s.df.errRow,
        errValue := s.df.errValue })) ∧
    deliver P .icReadStatus s = .next (s.reply (.icStatus
      { phase := s.ic.phase, cnt := s.ic.cnt, len := s.ic.len, rem := s.ic.rem, tag := s.ic.tag,
        errKind := s.ic.errKind, errTag := s.ic.errTag, fault := decide (s.ic.phase = .fault),
        midRecord := decide (s.ic.phase ≠ .fault ∧ ¬ (s.ic.phase = .len ∧ s.ic.cnt = 0)) }))

/-- 42_host_operations.md R196, 20_memory.md R74 (a), 60_exceptions.md R228: in DONE every byte of the image is there and
DF.READ_OUT returns it, without side effect on a unit; anywhere else the value handed over is an unspecified one,
whatever it is (log entry 8). -/
def Obligations.ReadOutReturnsImage : Prop :=
  ∀ (P : Config.Params) (s : State) (a : Nat), DfInv s.df →
    (s.df.state = .done → a < s.df.height.toNat * Config.stride s.df.width →
      ∃ v, s.df.out.read a = some v ∧ deliver P (.dfReadOut a) s = .next (s.reply (.outByte a v))) ∧
    (¬ (s.df.state = .done ∧ a < s.df.height.toNat * Config.stride s.df.width) →
      ∃ v, deliver P (.dfReadOut a) s = .next ((s.reply (.outUnspecified a v)).drawFree))
end

