-- ==== Sys2Proof/Laws/Memory.lean ====
section
/-! SUPPORT. The laws of a byte space: a read after a write, and that every operation keeps the canonical form. -/

namespace Sys2Proof.Machine

/-- What a byte reads as after a write. -/
theorem Memory.read_write (m : Memory) (a b : Nat) (v : Byte) :
    Memory.read (Memory.write m a v) b = if b = a then some v else Memory.read m b := by
  induction m with
  | nil => simp [Memory.write, Memory.read, eq_comm]
  | cons e m ih =>
    obtain ⟨k, w⟩ := e
    unfold Memory.write
    split
    · simp [Memory.read, eq_comm]
    · split
      · subst a; simp [Memory.read, eq_comm]; split <;> simp_all
      · by_cases hk : k = b
        · subst b; simp [Memory.read]; intro h; omega
        · simp [Memory.read, hk, ih]

@[simp] theorem Memory.read_write_same (m : Memory) (a : Nat) (v : Byte) :
    Memory.read (Memory.write m a v) a = some v := by simp [Memory.read_write]

theorem Memory.read_write_other (m : Memory) {a b : Nat} (v : Byte) (h : b ≠ a) :
    Memory.read (Memory.write m a v) b = Memory.read m b := by simp [Memory.read_write, h]

/-- The contents of a line buffer of `n` bytes. -/
theorem Memory.read_below (n : Nat) (m : Memory) (b : Nat) :
    Memory.read (Memory.below n m) b = if b < n then Memory.read m b else none := by
  induction m with
  | nil => simp [Memory.below, Memory.read]
  | cons e m ih =>
    obtain ⟨k, w⟩ := e
    by_cases hk : k < n
    · by_cases hb : k = b
      · subst b; simp [Memory.below, Memory.read, hk]
      · simp [Memory.below, Memory.read, hk, hb, ih]
    · by_cases hb : k = b
      · subst b; simp [Memory.below, hk, ih]
      · simp [Memory.below, Memory.read, hk, hb, ih]

theorem Memory.risingFrom_mono {a b : Nat} (h : a ≤ b) :
    ∀ {m : Memory}, Memory.risingFrom b m = true → Memory.risingFrom a m = true
  | [], _ => rfl
  | (k, v) :: m, hm => by
    simp only [Memory.risingFrom, Bool.and_eq_true, decide_eq_true_eq] at hm ⊢
    exact ⟨by omega, hm.2⟩

theorem Memory.risingFrom_write (m : Memory) (a c : Nat) (v : Byte) (hc : c ≤ a) (h : Memory.risingFrom c m = true) :
    Memory.risingFrom c (Memory.write m a v) = true := by
  induction m generalizing c with
  | nil => simp [Memory.write, Memory.risingFrom, hc]
  | cons e m ih =>
    obtain ⟨k, w⟩ := e
    simp only [Memory.risingFrom, Bool.and_eq_true, decide_eq_true_eq] at h
    unfold Memory.write
    split
    · simp [Memory.risingFrom, hc, h.2]; omega
    · split
      · simp [Memory.risingFrom, h]
      · simp [Memory.risingFrom, h.1]; exact ih (k + 1) (by omega) h.2

theorem Memory.risingFrom_below (n c : Nat) (m : Memory) (h : Memory.risingFrom c m = true) :
    Memory.risingFrom c (Memory.below n m) = true := by
  induction m generalizing c with
  | nil => rfl
  | cons e m ih =>
    obtain ⟨k, w⟩ := e
    simp only [Memory.risingFrom, Bool.and_eq_true, decide_eq_true_eq] at h
    unfold Memory.below
    split
    · simp [Memory.risingFrom, h.1, ih _ h.2]
    · exact ih c (Memory.risingFrom_mono (by omega) h.2)

/-- A write keeps the canonical form. -/
theorem Memory.wf_write {m : Memory} (a : Nat) (v : Byte) (h : Memory.wf m = true) :
    Memory.wf (Memory.write m a v) = true := Memory.risingFrom_write m a 0 v (Nat.zero_le _) h

/-- Taking a line buffer's contents keeps the canonical form. -/
theorem Memory.wf_below {m : Memory} (n : Nat) (h : Memory.wf m = true) : Memory.wf (Memory.below n m) = true :=
  Memory.risingFrom_below n 0 m h

@[simp] theorem Memory.wf_nil : Memory.wf [] = true := rfl

theorem Memory.read_of_risingFrom {m : Memory} {a b : Nat} (h : Memory.risingFrom a m = true) (hb : b < a) :
    Memory.read m b = none := by
  induction m generalizing a with
  | nil => rfl
  | cons e m ih =>
    obtain ⟨k, w⟩ := e
    simp only [Memory.risingFrom, Bool.and_eq_true, decide_eq_true_eq] at h
    have hk : k ≠ b := by omega
    simp [Memory.read, hk, ih h.2 (by omega)]

/-- Two canonical memories that read alike are equal data. -/
theorem Memory.ext_of_wf {m n : Memory} {c : Nat} (hm : Memory.risingFrom c m = true)
    (hn : Memory.risingFrom c n = true) (h : ∀ a, Memory.read m a = Memory.read n a) : m = n := by
  induction m generalizing n c with
  | nil =>
    cases n with
    | nil => rfl
    | cons e n => obtain ⟨k, w⟩ := e; simpa [Memory.read] using h k
  | cons e m ih =>
    obtain ⟨k, w⟩ := e
    cases n with
    | nil => simpa [Memory.read] using h k
    | cons e' n =>
      obtain ⟨k', w'⟩ := e'
      simp only [Memory.risingFrom, Bool.and_eq_true, decide_eq_true_eq] at hm hn
      have hk : k = k' := by
        rcases Nat.lt_trichotomy k k' with hlt | heq | hgt
        · have := h k
          have h1 : k' ≠ k := by omega
          simp [Memory.read, h1, Memory.read_of_risingFrom hn.2 (show k < k' + 1 by omega)] at this
        · exact heq
        · have := h k'
          have h1 : k ≠ k' := by omega
          simp [Memory.read, h1, Memory.read_of_risingFrom hm.2 (show k' < k + 1 by omega)] at this
      subst hk
      have hw : w = w' := by simpa [Memory.read] using h k
      subst hw
      congr 1
      refine ih hm.2 hn.2 fun a => ?_
      by_cases ha : k = a
      · subst a
        rw [Memory.read_of_risingFrom hm.2 (by omega), Memory.read_of_risingFrom hn.2 (by omega)]
      · simpa [Memory.read, ha] using h a

/-- The reset state's memories are in the canonical form. -/
theorem State.reset_memories_wf :
    Memory.wf State.reset.df.prior = true ∧ Memory.wf State.reset.df.cur = true ∧
      Memory.wf State.reset.df.out = true := ⟨rfl, rfl, rfl⟩

end Sys2Proof.Machine
end

