-- ==== Sys2Proof/Laws/State.lean ====
section
/-! SUPPORT. What each named update of the state leaves in each field, and that updates of different parts commute. -/

namespace Sys2Proof.Machine

@[simp] theorem State.withDf_df (s : State) (d : Df) : (s.withDf d).df = d := rfl
@[simp] theorem State.withDf_ic (s : State) (d : Df) : (s.withDf d).ic = s.ic := rfl
@[simp] theorem State.withDf_host (s : State) (d : Df) : (s.withDf d).host = s.host := rfl
@[simp] theorem State.withDf_self (s : State) : s.withDf s.df = s := rfl
@[simp] theorem State.withDf_withDf (s : State) (d e : Df) : (s.withDf d).withDf e = s.withDf e := rfl

@[simp] theorem State.withIc_df (s : State) (c : Ic) : (s.withIc c).df = s.df := rfl
@[simp] theorem State.withIc_ic (s : State) (c : Ic) : (s.withIc c).ic = c := rfl
@[simp] theorem State.withIc_host (s : State) (c : Ic) : (s.withIc c).host = s.host := rfl
@[simp] theorem State.withIc_self (s : State) : s.withIc s.ic = s := rfl
@[simp] theorem State.withIc_withIc (s : State) (c e : Ic) : (s.withIc c).withIc e = s.withIc e := rfl

@[simp] theorem State.withPending_df (s : State) (ts : List Token) : (s.withPending ts).df = s.df := rfl
@[simp] theorem State.withPending_ic (s : State) (ts : List Token) : (s.withPending ts).ic = s.ic := rfl
@[simp] theorem State.withPending_pending (s : State) (ts : List Token) : (s.withPending ts).host.pending = ts := rfl
@[simp] theorem State.withPending_verdicts (s : State) (ts : List Token) :
    (s.withPending ts).host.verdicts = s.host.verdicts := rfl
@[simp] theorem State.withPending_replies (s : State) (ts : List Token) :
    (s.withPending ts).host.replies = s.host.replies := rfl
@[simp] theorem State.withPending_freeCount (s : State) (ts : List Token) :
    (s.withPending ts).host.freeCount = s.host.freeCount := rfl
@[simp] theorem State.withPending_self (s : State) : s.withPending s.host.pending = s := rfl
@[simp] theorem State.withPending_withPending (s : State) (ts us : List Token) :
    (s.withPending ts).withPending us = s.withPending us := rfl

@[simp] theorem State.emit_df (s : State) (v : Verdict) : (s.emit v).df = s.df := rfl
@[simp] theorem State.emit_ic (s : State) (v : Verdict) : (s.emit v).ic = s.ic := rfl
@[simp] theorem State.emit_pending (s : State) (v : Verdict) : (s.emit v).host.pending = s.host.pending := rfl
@[simp] theorem State.emit_verdicts (s : State) (v : Verdict) :
    (s.emit v).host.verdicts = s.host.verdicts ++ [v] := rfl
@[simp] theorem State.emit_replies (s : State) (v : Verdict) : (s.emit v).host.replies = s.host.replies := rfl
@[simp] theorem State.emit_freeCount (s : State) (v : Verdict) : (s.emit v).host.freeCount = s.host.freeCount := rfl

@[simp] theorem State.reply_df (s : State) (r : Reply) : (s.reply r).df = s.df := rfl
@[simp] theorem State.reply_ic (s : State) (r : Reply) : (s.reply r).ic = s.ic := rfl
@[simp] theorem State.reply_pending (s : State) (r : Reply) : (s.reply r).host.pending = s.host.pending := rfl
@[simp] theorem State.reply_verdicts (s : State) (r : Reply) : (s.reply r).host.verdicts = s.host.verdicts := rfl
@[simp] theorem State.reply_replies (s : State) (r : Reply) :
    (s.reply r).host.replies = s.host.replies ++ [r] := rfl
@[simp] theorem State.reply_freeCount (s : State) (r : Reply) : (s.reply r).host.freeCount = s.host.freeCount := rfl

@[simp] theorem State.drawFree_df (s : State) : s.drawFree.df = s.df := rfl
@[simp] theorem State.drawFree_ic (s : State) : s.drawFree.ic = s.ic := rfl
@[simp] theorem State.drawFree_pending (s : State) : s.drawFree.host.pending = s.host.pending := rfl
@[simp] theorem State.drawFree_verdicts (s : State) : s.drawFree.host.verdicts = s.host.verdicts := rfl
@[simp] theorem State.drawFree_replies (s : State) : s.drawFree.host.replies = s.host.replies := rfl
@[simp] theorem State.drawFree_freeCount (s : State) : s.drawFree.host.freeCount = s.host.freeCount + 1 := rfl

/-- Placing the remaining tokens commutes with every other update. -/
@[simp] theorem State.withDf_withPending (s : State) (d : Df) (ts : List Token) :
    (s.withPending ts).withDf d = (s.withDf d).withPending ts := rfl
@[simp] theorem State.withIc_withPending (s : State) (c : Ic) (ts : List Token) :
    (s.withPending ts).withIc c = (s.withIc c).withPending ts := rfl
@[simp] theorem State.emit_withPending (s : State) (v : Verdict) (ts : List Token) :
    (s.withPending ts).emit v = (s.emit v).withPending ts := rfl
@[simp] theorem State.reply_withPending (s : State) (r : Reply) (ts : List Token) :
    (s.withPending ts).reply r = (s.reply r).withPending ts := rfl
@[simp] theorem State.drawFree_withPending (s : State) (ts : List Token) :
    (s.withPending ts).drawFree = s.drawFree.withPending ts := rfl

/-- Entering FAULT in DF: the error record, the state, and nothing else (60_exceptions.md R222). -/
@[simp] theorem dfRaise_state (k : ErrKind) (r : Word) (v : Byte) (d : Df) : (dfRaise k r v d).state = .fault := rfl
@[simp] theorem dfRaise_width (k : ErrKind) (r : Word) (v : Byte) (d : Df) : (dfRaise k r v d).width = d.width := rfl
@[simp] theorem dfRaise_height (k : ErrKind) (r : Word) (v : Byte) (d : Df) :
    (dfRaise k r v d).height = d.height := rfl
@[simp] theorem dfRaise_row (k : ErrKind) (r : Word) (v : Byte) (d : Df) : (dfRaise k r v d).row = d.row := rfl
@[simp] theorem dfRaise_col (k : ErrKind) (r : Word) (v : Byte) (d : Df) : (dfRaise k r v d).col = d.col := rfl
@[simp] theorem dfRaise_sel (k : ErrKind) (r : Word) (v : Byte) (d : Df) : (dfRaise k r v d).sel = d.sel := rfl
@[simp] theorem dfRaise_prior (k : ErrKind) (r : Word) (v : Byte) (d : Df) : (dfRaise k r v d).prior = d.prior := rfl
@[simp] theorem dfRaise_cur (k : ErrKind) (r : Word) (v : Byte) (d : Df) : (dfRaise k r v d).cur = d.cur := rfl
@[simp] theorem dfRaise_errKind (k : ErrKind) (r : Word) (v : Byte) (d : Df) : (dfRaise k r v d).errKind = k := rfl
@[simp] theorem dfRaise_errRow (k : ErrKind) (r : Word) (v : Byte) (d : Df) : (dfRaise k r v d).errRow = r := rfl
@[simp] theorem dfRaise_errValue (k : ErrKind) (r : Word) (v : Byte) (d : Df) : (dfRaise k r v d).errValue = v := rfl
@[simp] theorem dfRaise_out (k : ErrKind) (r : Word) (v : Byte) (d : Df) : (dfRaise k r v d).out = d.out := rfl

/-- Entering FAULT in IC (60_exceptions.md R222). -/
@[simp] theorem icRaise_phase (k : ErrKind) (t : Tag) (c : Ic) : (icRaise k t c).phase = .fault := rfl
@[simp] theorem icRaise_cnt (k : ErrKind) (t : Tag) (c : Ic) : (icRaise k t c).cnt = c.cnt := rfl
@[simp] theorem icRaise_len (k : ErrKind) (t : Tag) (c : Ic) : (icRaise k t c).len = c.len := rfl
@[simp] theorem icRaise_rem (k : ErrKind) (t : Tag) (c : Ic) : (icRaise k t c).rem = c.rem := rfl
@[simp] theorem icRaise_tag (k : ErrKind) (t : Tag) (c : Ic) : (icRaise k t c).tag = c.tag := rfl
@[simp] theorem icRaise_acc (k : ErrKind) (t : Tag) (c : Ic) : (icRaise k t c).acc = c.acc := rfl
@[simp] theorem icRaise_stored (k : ErrKind) (t : Tag) (c : Ic) : (icRaise k t c).stored = c.stored := rfl
@[simp] theorem icRaise_errKind (k : ErrKind) (t : Tag) (c : Ic) : (icRaise k t c).errKind = k := rfl
@[simp] theorem icRaise_errTag (k : ErrKind) (t : Tag) (c : Ic) : (icRaise k t c).errTag = t := rfl

end Sys2Proof.Machine
end

