-- ==== Sys2Proof/Laws/Defilter.lean ====
section
/-! SUPPORT. What each operation of unit DF does, once: the predictors in plain arithmetic, the neighbor mux, the data step,
the pushes of a row's bytes. -/

namespace Sys2Proof.Machine

@[simp] theorem andThen_next {α β : Type} (a : α) (k : α → Result β) : andThen (.next a) k = k a := rfl
@[simp] theorem andThen_fault {α β : Type} (r : Fault) (k : α → Result β) : andThen (.fault r) k = .fault r := rfl
@[simp] theorem andThen_refused {α β : Type} (r : Refusal) (k : α → Result β) :
    andThen (.refused r) k = .refused r := rfl

theorem andThen_assoc {α β γ : Type} (o : Result α) (k : α → Result β) (l : β → Result γ) :
    andThen (andThen o k) l = andThen o fun a => andThen (k a) l := by cases o <;> rfl

/-- A sequence answers a next state exactly when both parts do. -/
theorem andThen_eq_next {α β : Type} {o : Result α} {k : α → Result β} {b : β} :
    andThen o k = .next b ↔ ∃ a, o = .next a ∧ k a = .next b := by cases o <;> simp [andThen]

theorem stride_lt (w : Word) : Config.stride w < 2 ^ 34 := by
  have := w.isLt; simp only [Config.stride, Config.bpp]; omega

theorem stride_pos {w : Word} (h : w ≠ 0) : 3 ≤ Config.stride w := by
  have : w.toNat ≠ 0 := fun h0 => h (BitVec.eq_of_toNat_eq h0)
  simp only [Config.stride, Config.bpp]; omega

/-- The average in plain arithmetic (40_defilter_rows.md R124). -/
theorem avg_toNat (a b : Byte) : (avg a b).toNat = (a.toNat + b.toNat) / 2 := by
  have := a.isLt; have := b.isLt
  simp only [avg, BitVec.truncate_eq_setWidth, BitVec.toNat_setWidth,
    BitVec.toNat_ushiftRight, BitVec.toNat_add]
  rw [Nat.shiftRight_eq_div_pow]; omega

theorem avg_eq (a b : Byte) : avg a b = BitVec.ofNat 8 ((a.toNat + b.toNat) / 2) := by
  have := a.isLt; have := b.isLt
  apply BitVec.eq_of_toNat_eq; rw [avg_toNat, BitVec.toNat_ofNat]; omega

/-- The byte reconstructor is the 8-bit sum (R127). -/
@[simp] theorem reconstruct_eq (f p : Byte) : reconstruct f p = f + p := by
  have := f.isLt; have := p.isLt
  apply BitVec.eq_of_toNat_eq
  simp only [reconstruct, BitVec.truncate_eq_setWidth, BitVec.toNat_setWidth,
    BitVec.toNat_add]
  omega

/-- The predictor selector for a legal selector is total. -/
theorem predictor_legal (sel : Byte) (n : Neighbors) (h : sel.toNat ≤ 4) :
    predictor sel n = .next (if sel = 0 then 0 else if sel = 1 then n.left else if sel = 2 then n.above
      else if sel = 3 then BitVec.ofNat 8 ((n.left.toNat + n.above.toNat) / 2)
      else paeth n.left n.above n.aboveLeft) := by
  unfold predictor
  split_ifs with h0 h1 h2 h3 h4 <;> simp_all [predNone, predSub, predUp, predAvg, predPaeth, avg_eq]
  exfalso
  have e0 : sel.toNat ≠ 0 := fun e => h0 (BitVec.eq_of_toNat_eq e)
  have e1 : sel.toNat ≠ 1 := fun e => h1 (BitVec.eq_of_toNat_eq e)
  have e2 : sel.toNat ≠ 2 := fun e => h2 (BitVec.eq_of_toNat_eq e)
  have e3 : sel.toNat ≠ 3 := fun e => h3 (BitVec.eq_of_toNat_eq e)
  have e4 : sel.toNat ≠ 4 := fun e => h4 (BitVec.eq_of_toNat_eq e)
  omega

theorem readCur_eq_next {d : Df} {i : Nat} {b : Byte} : readCur d i = .next b ↔ d.cur.read i = some b := by
  unfold readCur; cases Memory.read d.cur i <;> simp

theorem readPrior_eq_next {d : Df} {i : Nat} {b : Byte} : readPrior d i = .next b ↔ d.prior.read i = some b := by
  unfold readPrior; cases Memory.read d.prior i <;> simp

/-- A neighbor with its boundary test (R122). -/
theorem ite_eq_next {c : Prop} [Decidable c] {o : Result Byte} {b : Byte} {q : Prop} (h : o = .next b ↔ q) :
    (if c then o else .next 0) = .next b ↔ if c then q else b = 0 := by
  by_cases hc : c
  · rw [if_pos hc, if_pos hc]; exact h
  · rw [if_neg hc, if_neg hc]
    exact ⟨fun e => (Host.Outcome.next.inj e).symm, fun e => congrArg _ e.symm⟩

/-- The neighbor mux answers exactly when the entries it reads have values, and then with these (R122). -/
theorem neighborMux_eq_next {d : Df} {n : Neighbors} :
    neighborMux d = .next n ↔
      (if 3 ≤ d.col.toNat then d.cur.read (d.col.toNat - 3) = some n.left else n.left = 0) ∧
      (if 1 ≤ d.row.toNat then d.prior.read d.col.toNat = some n.above else n.above = 0) ∧
      (if 1 ≤ d.row.toNat ∧ 3 ≤ d.col.toNat then d.prior.read (d.col.toNat - 3) = some n.aboveLeft
        else n.aboveLeft = 0) := by
  have h1 : ∀ a, leftNeighbor d = .next a ↔ _ := fun a => ite_eq_next readCur_eq_next
  have h2 : ∀ b, aboveNeighbor d = .next b ↔ _ := fun b => ite_eq_next readPrior_eq_next
  have h3 : ∀ c, aboveLeftNeighbor d = .next c ↔ _ := fun c => ite_eq_next readPrior_eq_next
  obtain ⟨a, b, c⟩ := n
  simp only [neighborMux, andThen_eq_next, Host.Outcome.next.injEq, Neighbors.mk.injEq]
  constructor
  · rintro ⟨x, hx, y, hy, z, hz, rfl, rfl, rfl⟩
    exact ⟨(h1 _).1 hx, (h2 _).1 hy, (h3 _).1 hz⟩
  · rintro ⟨hx, hy, hz⟩
    exact ⟨a, (h1 _).2 hx, b, (h2 _).2 hy, c, (h3 _).2 hz, rfl, rfl, rfl⟩

/-- Where the entries it reads have values, the mux answers (R122). -/
theorem neighborMux_total {d : Df} (hc : 3 ≤ d.col.toNat → (d.cur.read (d.col.toNat - 3)).isSome = true)
    (hp : 1 ≤ d.row.toNat → (d.prior.read d.col.toNat).isSome = true ∧
      (3 ≤ d.col.toNat → (d.prior.read (d.col.toNat - 3)).isSome = true)) :
    ∃ n, neighborMux d = .next n := by
  refine ⟨⟨if 3 ≤ d.col.toNat then (d.cur.read (d.col.toNat - 3)).getD 0 else 0,
    if 1 ≤ d.row.toNat then (d.prior.read d.col.toNat).getD 0 else 0,
    if 1 ≤ d.row.toNat ∧ 3 ≤ d.col.toNat then (d.prior.read (d.col.toNat - 3)).getD 0 else 0⟩, ?_⟩
  have some_getD : ∀ o : Option Byte, o.isSome = true → o = some (o.getD 0) := by intro o h; cases o <;> simp_all
  rw [neighborMux_eq_next]
  refine ⟨?_, ?_, ?_⟩ <;> split
  · exact some_getD _ (hc ‹_›)
  · rfl
  · exact some_getD _ (hp ‹_›).1
  · rfl
  · rename_i h; exact some_getD _ ((hp h.1).2 h.2)
  · rfl

/-- A data step: the byte it reconstructs, and what it leaves (R128). -/
theorem dataStep_eq_next {f : Byte} {d e : Df} :
    dataStep f d = .next e ↔
      ∃ n p, neighborMux d = .next n ∧ predictor d.sel n = .next p ∧ e = storeByte (f + p) d := by
  simp only [dataStep, andThen_eq_next, Host.Outcome.next.injEq, reconstruct_eq]
  constructor
  · rintro ⟨n, hn, p, hp, rfl⟩; exact ⟨n, p, hn, hp, rfl⟩
  · rintro ⟨n, p, hn, hp, rfl⟩; exact ⟨n, hn, p, hp, rfl⟩

theorem dfPushAll_append (xs ys : List Byte) (d : Df) :
    dfPushAll (xs ++ ys) d = andThen (dfPushAll xs d) (dfPushAll ys) := by
  induction xs generalizing d with
  | nil => rfl
  | cons x xs ih =>
    simp only [List.cons_append, dfPushAll, andThen_assoc]
    congr 1; funext e; exact ih e

/-- What storing a byte changes, away from the end of the row (R128). -/
theorem storeByte_mid {r : Byte} {d : Df} (h : d.col.toNat + 1 < Config.stride d.width) :
    storeByte r d = { d with cur := d.cur.write d.col.toNat r, out := d.out.write (outAddress d) r,
                             col := d.col + 1 } := by simp [storeByte, h]

/-- What storing the last byte of a row changes (R128, R129). -/
theorem storeByte_last {r : Byte} {d : Df} (h : ¬ d.col.toNat + 1 < Config.stride d.width) :
    storeByte r d = { d with
      cur := d.cur.write d.col.toNat r
      out := d.out.write (outAddress d) r
      prior := (d.cur.write d.col.toNat r).below (Config.stride d.width)
      col := 0
      row := d.row + 1
      state := if d.row.toNat + 1 < d.height.toNat then .select else .done } := by simp [storeByte, h, endOfRow]

/-- In DATA the remaining bytes of the row, pushed: every step answers, and what the run leaves (R120, R128, R129).
`g` gives the filtered byte of each position still to come. -/
theorem pushRest (bs : List Byte) : ∀ d : Df, d.state = .data → bs ≠ [] →
    d.col.toNat + bs.length = Config.stride d.width → d.sel.toNat ≤ 4 →
    (∀ j, j < d.col.toNat → (d.cur.read j).isSome = true) →
    (1 ≤ d.row.toNat → ∀ j, j < Config.stride d.width → (d.prior.read j).isSome = true) →
    ∃ e, dfPushAll bs d = .next e ∧
      e = { d with
        cur := e.cur
        out := e.out
        prior := e.cur.below (Config.stride d.width)
        col := 0
        row := d.row + 1
        state := if d.row.toNat + 1 < d.height.toNat then .select else .done } ∧
      (∀ j, j < d.col.toNat ∨ Config.stride d.width ≤ j → e.cur.read j = d.cur.read j) ∧
      (∀ a, a < outAddress d ∨ d.row.toNat * Config.stride d.width + Config.stride d.width ≤ a →
        e.out.read a = d.out.read a) ∧
      (∀ j, d.col.toNat ≤ j → j < Config.stride d.width →
        e.out.read (d.row.toNat * Config.stride d.width + j) = e.cur.read j) ∧
      (∀ j, d.col.toNat ≤ j → j < Config.stride d.width → ∃ n : Neighbors, ∃ p,
        (if 3 ≤ j then e.cur.read (j - 3) = some n.left else n.left = 0) ∧
        (if 1 ≤ d.row.toNat then d.prior.read j = some n.above else n.above = 0) ∧
        (if 1 ≤ d.row.toNat ∧ 3 ≤ j then d.prior.read (j - 3) = some n.aboveLeft else n.aboveLeft = 0) ∧
        predictor d.sel n = .next p ∧
        e.cur.read j = some (bs.getD (j - d.col.toNat) 0 + p)) ∧
      (d.cur.wf = true → e.cur.wf = true) ∧ (d.out.wf = true → e.out.wf = true) := by
  induction bs with
  | nil => intro d _ h; exact absurd rfl h
  | cons b bs ih =>
    intro d hs _ hl hsel hcur hprior
    have hcol : d.col.toNat < Config.stride d.width := by simp at hl; omega
    have hS := stride_lt d.width
    obtain ⟨n, hn⟩ := neighborMux_total (d := d) (fun h => hcur _ (by omega))
      (fun h => ⟨hprior h _ hcol, fun h3 => hprior h _ (by omega)⟩)
    obtain ⟨p, hp⟩ : ∃ p, predictor d.sel n = .next p := ⟨_, predictor_legal _ _ hsel⟩
    have hstep : dfPush b d = .next (storeByte (b + p) d) := by
      simp only [dfPush, hs]; exact dataStep_eq_next.2 ⟨n, p, hn, hp, rfl⟩
    rw [neighborMux_eq_next] at hn
    simp only [dfPushAll, hstep, andThen_next]
    cases bs with
    | nil =>
      have hlast : ¬ d.col.toNat + 1 < Config.stride d.width := by simp at hl; omega
      rw [storeByte_last hlast]
      refine ⟨_, rfl, rfl, ?_, ?_, ?_, ?_, ?_, ?_⟩
      · intro j hj; exact Memory.read_write_other _ _ (by omega)
      · intro a ha; exact Memory.read_write_other _ _ (by simp only [outAddress] at ha ⊢; omega)
      · intro j h1 h2
        have : j = d.col.toNat := by omega
        subst this; simp [outAddress]
      · intro j h1 h2
        have : j = d.col.toNat := by omega
        subst this
        refine ⟨n, p, ?_, hn.2.1, hn.2.2, hp, by simp⟩
        split
        · rename_i h3; rw [if_pos h3] at hn; simp only
          rw [Memory.read_write_other _ _ (by omega)]; exact hn.1
        · rename_i h3; rw [if_neg h3] at hn; exact hn.1
      · exact fun h => Memory.wf_write _ _ h
      · exact fun h => Memory.wf_write _ _ h
    | cons b' bs' =>
      have hmid : d.col.toNat + 1 < Config.stride d.width := by simp at hl; omega
      have hcol1 : (d.col + 1).toNat = d.col.toNat + 1 := by
        rw [BitVec.toNat_add]; simp; omega
      rw [storeByte_mid hmid]
      obtain ⟨e, he, hee, h1, h2, h3, h4, h5, h6⟩ := ih
        { d with cur := d.cur.write d.col.toNat (b + p), out := d.out.write (outAddress d) (b + p), col := d.col + 1 }
        hs (by simp) (by simp only [hcol1]; simp at hl ⊢; omega) hsel
        (by
          intro j hj
          simp only [hcol1] at hj ⊢
          by_cases hjj : j = d.col.toNat
          · subst hjj; simp
          · rw [Memory.read_write_other _ _ hjj]; exact hcur j (by omega))
        hprior
      simp only [hcol1] at h1 h2 h3 h4 h5 h6
      have hout : outAddress { d with cur := d.cur.write d.col.toNat (b + p),
                                      out := d.out.write (outAddress d) (b + p), col := d.col + 1 }
          = outAddress d + 1 := by simp only [outAddress, hcol1]; omega
      rw [hout] at h2
      refine ⟨e, he, hee, ?_, ?_, ?_, ?_, ?_, ?_⟩
      · intro j hj; rw [h1 j (by omega)]; exact Memory.read_write_other _ _ (by omega)
      · intro a ha; rw [h2 a (by omega)]
        exact Memory.read_write_other _ _ (by simp only [outAddress] at ha ⊢; omega)
      · intro j hj hj2
        by_cases hjj : j = d.col.toNat
        · subst hjj
          rw [h1 _ (by omega)]
          rw [show d.row.toNat * Config.stride d.width + d.col.toNat = outAddress d from rfl, h2 _ (by omega)]
          simp
        · exact h3 j (by omega) hj2
      · intro j hj hj2
        by_cases hjj : j = d.col.toNat
        · subst hjj
          refine ⟨n, p, ?_, hn.2.1, hn.2.2, hp, ?_⟩
          · split
            · rename_i h3'; rw [if_pos h3'] at hn
              rw [h1 _ (by omega), Memory.read_write_other _ _ (by omega)]; exact hn.1
            · rename_i h3'; rw [if_neg h3'] at hn; exact hn.1
          · rw [h1 _ (by omega)]; simp
        · obtain ⟨n', p', ha, hb, hc, hp', hv⟩ := h4 j (by omega) hj2
          refine ⟨n', p', ha, hb, hc, hp', ?_⟩
          rw [hv]
          have : j - d.col.toNat = (j - (d.col.toNat + 1)) + 1 := by omega
          rw [this]; rfl
      · exact fun h => h5 (Memory.wf_write _ _ h)
      · exact fun h => h6 (Memory.wf_write _ _ h)

/-- The column moves on without wrapping (10_state.md R25). -/
theorem col_succ_toNat {d : Df} (h : d.col.toNat + 1 ≤ Config.stride d.width) :
    (d.col + 1).toNat = d.col.toNat + 1 := by
  have := stride_lt d.width; rw [BitVec.toNat_add]; simp; omega

/-- The row moves on without wrapping below HEIGHT (10_state.md R24). -/
theorem row_succ_toNat {r h : Word} (hr : r.toNat < h.toNat) : (r + 1).toNat = r.toNat + 1 := by
  have := h.isLt; rw [BitVec.toNat_add]; simp; omega

/-- Everything a push can do to DF: a selector step, a data step, nothing (42_host_operations.md R193). -/
theorem dfPush_cases {b : Byte} {d e : Df} (h : dfPush b d = .next e) :
    (d.state = .select ∧ e = selectorStep b d) ∨
    (d.state = .data ∧ ∃ n p, neighborMux d = .next n ∧ predictor d.sel n = .next p ∧ e = storeByte (b + p) d) ∨
    ((d.state = .idle ∨ d.state = .done ∨ d.state = .fault) ∧ e = d) := by
  cases hs : d.state <;> simp only [dfPush, hs] at h
  · cases h; exact Or.inr (Or.inr ⟨Or.inl rfl, rfl⟩)
  · cases h; exact Or.inl ⟨rfl, rfl⟩
  · exact Or.inr (Or.inl ⟨rfl, dataStep_eq_next.1 h⟩)
  · cases h; exact Or.inr (Or.inr ⟨Or.inr (Or.inl rfl), rfl⟩)
  · cases h; exact Or.inr (Or.inr ⟨Or.inr (Or.inr rfl), rfl⟩)

/-- Everything `DF.START` can do where it answers a next state (42_host_operations.md R192). -/
theorem dfStart_cases {P : Config.Params} {w h : Word} {d e : Df} (hd : dfStart P w h d = .next e) :
    (d.state ≠ .idle ∧ e = d) ∨
    (d.state = .idle ∧ (w = 0 ∨ h = 0) ∧ e = dfRaise .invalidDimensions 0 0 d) ∨
    (d.state = .idle ∧ w ≠ 0 ∧ h ≠ 0 ∧ e = { d with width := w, height := h, row := 0, col := 0, state := .select }) := by
  unfold dfStart at hd
  split_ifs at hd with h1 h2 h3
  · cases hd; exact Or.inr (Or.inl ⟨h1, h2, rfl⟩)
  · cases hd; exact Or.inr (Or.inr ⟨h1, fun e => h2 (Or.inl e), fun e => h2 (Or.inr e), rfl⟩)
  · cases hd; exact Or.inl ⟨h1, rfl⟩

end Sys2Proof.Machine
end

