-- ==== Sys2Proof/Laws/Integrity.lean ====
section
/-! SUPPORT. What unit IC does with the fields of a block record (41_integrity_check.md R165 to R168), and the fields' bytes. -/

namespace Sys2Proof.Machine

theorem icPushAll_append (P : Config.Params) (xs ys : List Byte) (c : Ic) :
    icPushAll P (xs ++ ys) c =
      ((icPushAll P ys (icPushAll P xs c).1).1, (icPushAll P xs c).2 ++ (icPushAll P ys (icPushAll P xs c).1).2) := by
  induction xs generalizing c with
  | nil => simp [icPushAll]
  | cons x xs ih => simp [icPushAll, ih]

/-- Four bytes shifted in leave the big-endian word, whatever the register held (R165: "stale bits"). -/
theorem shiftIn_four (w : Word) (b0 b1 b2 b3 : Byte) :
    shiftIn (shiftIn (shiftIn (shiftIn w b0) b1) b2) b3 = wordBE b0 b1 b2 b3 := by
  have := b0.isLt; have := b1.isLt; have := b2.isLt; have := b3.isLt
  apply BitVec.eq_of_toNat_eq
  simp only [shiftIn, wordBE, BitVec.toNat_add, BitVec.toNat_shiftLeft, BitVec.toNat_append,
    BitVec.zeroExtend_eq_setWidth, BitVec.toNat_setWidth, Nat.shiftLeft_eq]
  simp only [← Nat.shiftLeft_eq]
  rw [← Nat.shiftLeft_add_eq_or_of_lt b3.isLt, ← Nat.shiftLeft_add_eq_or_of_lt b2.isLt,
    ← Nat.shiftLeft_add_eq_or_of_lt b1.isLt]
  simp only [Nat.shiftLeft_eq]
  omega

/-- The big-endian word in plain arithmetic (30_encoding.md R97). -/
theorem wordBE_toNat (b0 b1 b2 b3 : Byte) :
    (wordBE b0 b1 b2 b3).toNat = b0.toNat * 2 ^ 24 + b1.toNat * 2 ^ 16 + b2.toNat * 2 ^ 8 + b3.toNat := by
  simp only [wordBE, BitVec.toNat_append]
  rw [← Nat.shiftLeft_add_eq_or_of_lt b3.isLt, ← Nat.shiftLeft_add_eq_or_of_lt b2.isLt,
    ← Nat.shiftLeft_add_eq_or_of_lt b1.isLt]
  simp only [Nat.shiftLeft_eq]
  omega

/-- The encoder's four bytes make the word again. -/
theorem wordBE_bytes (w : Word) :
    wordBE (w.extractLsb' 24 8) (w.extractLsb' 16 8) (w.extractLsb' 8 8) (w.extractLsb' 0 8) = w := by
  have := w.isLt
  apply BitVec.eq_of_toNat_eq
  rw [wordBE_toNat]
  simp only [BitVec.extractLsb'_toNat, Nat.shiftRight_eq_div_pow]
  omega

/-- The decoder's four bytes are the encoder's again. -/
theorem bytesBE_wordBE (b0 b1 b2 b3 : Byte) : bytesBE (wordBE b0 b1 b2 b3) = [b0, b1, b2, b3] := by
  have := b0.isLt; have := b1.isLt; have := b2.isLt; have := b3.isLt
  simp only [bytesBE, List.cons.injEq, and_true]
  refine ⟨?_, ?_, ?_, ?_⟩ <;>
    (apply BitVec.eq_of_toNat_eq
     simp only [BitVec.extractLsb'_toNat, wordBE_toNat, Nat.shiftRight_eq_div_pow]
     omega)

/-- Phase LEN as a whole, from the record boundary (R165). -/
theorem icPushAll_length (P : Config.Params) (b0 b1 b2 b3 : Byte) (c : Ic) (hp : c.phase = .len) (hc : c.cnt = 0) :
    icPushAll P [b0, b1, b2, b3] c =
      ({ c with len := wordBE b0 b1 b2 b3, cnt := 0, acc := P.checksum.init, phase := .tag }, []) := by
  simp [icPushAll, icPush, hp, hc, lenStep, shiftIn_four]

/-- Phase TAG as a whole (R166). -/
theorem icPushAll_tag (P : Config.Params) (t : Tag) (c : Ic) (hp : c.phase = .tag) (hc : c.cnt = 0) :
    icPushAll P (tagBytes t) c =
      ({ c with
        tag := t, acc := absorb P.checksum c.acc (tagBytes t), cnt := 0, rem := c.len, stored := 0,
        phase := if 0 < c.len.toNat then .payload else .crc }, []) := by
  simp [icPushAll, tagBytes, icPush, hp, hc, tagStep, tagSet, absorb]

/-- Phase PAYLOAD: a part of the payload that does not end it (R167). -/
theorem icPushAll_payload_part (P : Config.Params) (xs : List Byte) (c : Ic) (hp : c.phase = .payload)
    (hl : xs.length < c.rem.toNat) :
    icPushAll P xs c =
      ({ c with acc := absorb P.checksum c.acc xs, rem := c.rem - BitVec.ofNat 32 xs.length }, []) := by
  induction xs generalizing c with
  | nil => simp [icPushAll, absorb]
  | cons x xs ih =>
    simp only [List.length_cons] at hl
    have hr := c.rem.isLt
    have h1 : c.rem ≠ 1 := by intro h; rw [h] at hl; simp at hl
    have hsub : (c.rem - 1).toNat = c.rem.toNat - 1 := by
      rw [BitVec.toNat_sub]; simp; omega
    have hpush : icPush P x c = ({ c with acc := P.checksum.update c.acc x, rem := c.rem - 1 }, none) := by
      simp only [icPush, hp, payloadStep]; rw [if_neg h1, ← hp]
    simp only [icPushAll, hpush]
    rw [ih { c with acc := P.checksum.update c.acc x, rem := c.rem - 1 } hp (by simp only [hsub]; omega)]
    simp only [absorb, List.foldl_cons, List.length_cons, Option.toList_none, List.nil_append, Prod.mk.injEq, and_true]
    congr 1
    apply BitVec.eq_of_toNat_eq
    simp only [BitVec.toNat_sub, BitVec.ofNat_eq_ofNat, BitVec.toNat_ofNat]
    omega

/-- Phase PAYLOAD as a whole (R167). -/
theorem icPushAll_payload (P : Config.Params) (xs : List Byte) (c : Ic) (hp : c.phase = .payload)
    (hl : xs.length = c.rem.toNat) (h0 : 0 < xs.length) :
    icPushAll P xs c =
      ({ c with acc := absorb P.checksum c.acc xs, rem := 0, phase := .crc }, []) := by
  obtain ⟨ys, x, rfl⟩ : ∃ ys x, xs = ys ++ [x] :=
    ⟨xs.dropLast, xs.getLast (by intro h; simp [h] at h0), (List.dropLast_append_getLast _).symm⟩
  simp only [List.length_append, List.length_singleton] at hl
  have hr := c.rem.isLt
  rw [icPushAll_append, icPushAll_payload_part P ys c hp (by omega)]
  have h1 : c.rem - BitVec.ofNat 32 ys.length = 1 := by
    apply BitVec.eq_of_toNat_eq
    simp only [BitVec.toNat_sub, BitVec.ofNat_eq_ofNat, BitVec.toNat_ofNat]; omega
  simp [icPushAll, icPush, hp, payloadStep, h1, absorb]

/-- Phase CRC as a whole: a verdict, or `ChecksumMismatch` (R168, R170, R171). -/
theorem icPushAll_crc (P : Config.Params) (w : Word) (c : Ic) (hp : c.phase = .crc) (hc : c.cnt = 0) :
    icPushAll P (bytesBE w) c =
      if P.checksum.final c.acc = w then
        ({ c with stored := w, cnt := 0, phase := .len }, [⟨c.tag, c.len⟩])
      else
        ({ c with
          stored := shiftIn (shiftIn (shiftIn c.stored (w.extractLsb' 24 8)) (w.extractLsb' 16 8)) (w.extractLsb' 8 8),
          cnt := 3, phase := .fault, errKind := .checksumMismatch, errTag := c.tag }, []) := by
  have hw : shiftIn (shiftIn (shiftIn (shiftIn c.stored (w.extractLsb' 24 8)) (w.extractLsb' 16 8))
      (w.extractLsb' 8 8)) (w.extractLsb' 0 8) = w := by rw [shiftIn_four, wordBE_bytes]
  by_cases h : P.checksum.final c.acc = w
  · simp [icPushAll, bytesBE, icPush, hp, hc, crcStep, hw, h]
  · simp [icPushAll, bytesBE, icPush, hp, hc, crcStep, hw, h, icRaise]

end Sys2Proof.Machine
end

