-- ==== Sys2Proof/Laws/PerInstr.lean ====
section
/-! SUPPORT. Statements about the instructions as syntax, one lemma per constructor: a well-formed record encodes to as many
bytes as the opcode table's length_bytes gives it (30_encoding.md R94, R99). -/

namespace Sys2Proof.Laws.EncLength

/-- The encoding of a well-formed record has the record's length. -/
def Statement (i : Instr) : Prop := ∀ width : Word, i.wellFormed width = true → (encode i).length = i.recordLength width

theorem rowNone (f : List Byte) : Statement (.rowNone f) := by
  intro w h; simp only [Instr.wellFormed, beq_iff_eq] at h; simp [encode, Instr.recordLength, h]; omega
theorem rowSub (f : List Byte) : Statement (.rowSub f) := by
  intro w h; simp only [Instr.wellFormed, beq_iff_eq] at h; simp [encode, Instr.recordLength, h]; omega
theorem rowUp (f : List Byte) : Statement (.rowUp f) := by
  intro w h; simp only [Instr.wellFormed, beq_iff_eq] at h; simp [encode, Instr.recordLength, h]; omega
theorem rowAvg (f : List Byte) : Statement (.rowAvg f) := by
  intro w h; simp only [Instr.wellFormed, beq_iff_eq] at h; simp [encode, Instr.recordLength, h]; omega
theorem rowPaeth (f : List Byte) : Statement (.rowPaeth f) := by
  intro w h; simp only [Instr.wellFormed, beq_iff_eq] at h; simp [encode, Instr.recordLength, h]; omega
theorem rowIllegal05 : Statement .rowIllegal05 := fun _ _ => rfl
theorem rowIllegal0607 (low : BitVec 1) : Statement (.rowIllegal0607 low) := fun _ _ => rfl
theorem rowIllegal080F (low : BitVec 3) : Statement (.rowIllegal080F low) := fun _ _ => rfl
theorem rowIllegal101F (low : BitVec 4) : Statement (.rowIllegal101F low) := fun _ _ => rfl
theorem rowIllegal203F (low : BitVec 5) : Statement (.rowIllegal203F low) := fun _ _ => rfl
theorem rowIllegal407F (low : BitVec 6) : Statement (.rowIllegal407F low) := fun _ _ => rfl
theorem rowIllegal80FF (low : BitVec 7) : Statement (.rowIllegal80FF low) := fun _ _ => rfl
theorem chkblk (length : Word) (tag : Tag) (payload : List Byte) (crc : Word) :
    Statement (.chkblk length tag payload crc) := by
  intro w h; simp only [Instr.wellFormed, beq_iff_eq] at h
  simp [encode, Instr.recordLength, bytesBE, tagBytes, h]; omega

end Sys2Proof.Laws.EncLength
end

