-- ==== Sys2Proof/Laws/Run.lean ====
section
/-! SUPPORT. Token sequences: how a delivery acts on each part of the state, sequences of pushes, and token steps. -/

namespace Sys2Proof.Machine

variable {P : Config.Params}

theorem deliverAll_append (ts us : List Token) (s : State) :
    deliverAll P (ts ++ us) s = andThen (deliverAll P ts s) (deliverAll P us) := by
  induction ts generalizing s with
  | nil => rfl
  | cons t ts ih =>
    simp only [List.cons_append, deliverAll, andThen_assoc]
    congr 1; funext t'; exact ih t'

/-- Pushing bytes into DF acts on DF alone. -/
theorem deliverAll_dfPushes (bs : List Byte) (s : State) : deliverAll P (dfPushes bs) s = onDf (dfPushAll bs s.df) s := by
  induction bs generalizing s with
  | nil => rfl
  | cons b bs ih =>
    show andThen (onDf (dfPush b s.df) s) (deliverAll P (dfPushes bs)) = onDf (andThen (dfPush b s.df) (dfPushAll bs)) s
    simp only [onDf, andThen_assoc]
    congr 1; funext d
    simp [ih, onDf]

/-- Pushing bytes into IC acts on IC and on the verdicts alone, and always answers. -/
theorem deliverAll_icPushes (xs : List Byte) (s : State) :
    deliverAll P (icPushes xs) s = .next { s with
      ic := (icPushAll P xs s.ic).1
      host := { s.host with verdicts := s.host.verdicts ++ (icPushAll P xs s.ic).2 } } := by
  induction xs generalizing s with
  | nil => simp [icPushes, deliverAll, icPushAll]
  | cons x xs ih =>
    show andThen (.next (onIc (icPush P x s.ic) s)) (deliverAll P (icPushes xs)) = _
    rw [andThen_next, ih]
    simp only [icPushAll, onIc]
    cases h : (icPush P x s.ic).2 <;> simp [State.withIc, State.emit]

/-- The tokens still to deliver neither steer a delivery nor are changed by it. -/
theorem deliver_withPending (t : Token) (s : State) (ts : List Token) :
    deliver P t (s.withPending ts) = andThen (deliver P t s) fun u => .next (u.withPending ts) := by
  cases t with
  | dfPush b => simp only [deliver, onDf, State.withPending_df, andThen_assoc]; congr 1
  | dfStart w h => simp only [deliver, onDf, State.withPending_df, andThen_assoc]; congr 1
  | icPush x =>
    simp only [deliver, onIc, State.withPending_ic, andThen_next]
    cases (icPush P x s.ic).2 <;> rfl
  | dfReadOut a =>
    by_cases hc : s.df.state = .done ∧ a < s.df.height.toNat * Config.stride s.df.width
    · cases h : Memory.read s.df.out a <;> simp [deliver, readOut, hc, h]
    · simp [deliver, readOut, hc]
  | dfReset => rfl
  | dfEos => rfl
  | dfReadStatus => rfl
  | icReset => rfl
  | icEos => rfl
  | icReadStatus => rfl

theorem deliverAll_withPending (us : List Token) (s : State) (ts : List Token) :
    deliverAll P us (s.withPending ts) = andThen (deliverAll P us s) fun u => .next (u.withPending ts) := by
  induction us generalizing s with
  | nil => rfl
  | cons t us ih =>
    simp only [deliverAll, deliver_withPending, andThen_assoc, andThen_next]
    congr 1; funext u; exact ih u

/-- Token steps along a known prefix of the host's tokens deliver that prefix. -/
theorem tokenSteps_prefix (us rest : List Token) (s : State) :
    tokenSteps P us.length (s.withPending (us ++ rest)) = deliverAll P us (s.withPending rest) := by
  induction us generalizing s with
  | nil => rfl
  | cons t us ih =>
    simp only [List.length_cons, tokenSteps, tokenStep, List.cons_append, State.withPending_pending,
      State.withPending_withPending, deliverAll]
    rw [deliver_withPending, deliver_withPending, andThen_assoc, andThen_assoc]
    congr 1; funext u; exact ih u

/-- A DF token leaves IC and the verdicts; an IC token leaves DF (42_host_operations.md R203). -/
theorem deliver_df_frame {t : Token} {s u : State} (h : deliver P t s = .next u) (ht : t.isDf = true) :
    u.ic = s.ic ∧ u.host.verdicts = s.host.verdicts ∧ u.host.pending = s.host.pending := by
  have key : ∀ {o : Result Df}, onDf o s = .next u →
      u.ic = s.ic ∧ u.host.verdicts = s.host.verdicts ∧ u.host.pending = s.host.pending := by
    intro o ho
    obtain ⟨d, _, hd⟩ := andThen_eq_next.1 ho
    cases hd; simp
  cases t with
  | dfPush b => exact key h
  | dfStart w v => exact key h
  | dfReadOut a =>
    simp only [deliver, readOut, Host.Outcome.next.injEq] at h
    split at h
    · cases hr : Memory.read s.df.out a <;> simp only [hr] at h <;> subst h <;> simp
    · subst h; simp
  | dfReset => cases h; simp
  | dfEos => cases h; simp
  | dfReadStatus => cases h; simp
  | icReset => cases ht
  | icPush x => cases ht
  | icEos => cases ht
  | icReadStatus => cases ht

theorem deliver_ic_frame {t : Token} {s u : State} (h : deliver P t s = .next u) (ht : t.isDf = false) :
    u.df = s.df ∧ u.host.freeCount = s.host.freeCount ∧ u.host.pending = s.host.pending := by
  cases t with
  | icReset => cases h; simp
  | icPush x =>
    simp only [deliver, onIc, Host.Outcome.next.injEq] at h
    cases hv : (icPush P x s.ic).2 <;> simp only [hv] at h <;> subst h <;> simp
  | icEos => cases h; simp
  | icReadStatus => cases h; simp
  | dfPush b => cases ht
  | dfStart w v => cases ht
  | dfReadOut a => cases ht
  | dfReset => cases ht
  | dfEos => cases ht
  | dfReadStatus => cases ht

/-- A legal row record in SELECT: the run answers, and what it leaves. `e` is DF after the row. -/
theorem pushRow (sel : Byte) (f : List Byte) (d : Df) (hs : d.state = .select) (hsel : sel.toNat ≤ 4)
    (hf : f.length = Config.stride d.width) (hw : d.width ≠ 0) (hp : priorReadable d) :
    ∃ e, dfPushAll (sel :: f) d = .next e ∧
      e = { d with
        sel := sel
        cur := e.cur
        out := e.out
        prior := e.cur.below (Config.stride d.width)
        col := 0
        row := d.row + 1
        state := if d.row.toNat + 1 < d.height.toNat then .select else .done } ∧
      (∀ j, Config.stride d.width ≤ j → e.cur.read j = d.cur.read j) ∧
      (∀ a, a < d.row.toNat * Config.stride d.width ∨
          d.row.toNat * Config.stride d.width + Config.stride d.width ≤ a → e.out.read a = d.out.read a) ∧
      (∀ j, j < Config.stride d.width → e.out.read (d.row.toNat * Config.stride d.width + j) = e.cur.read j) ∧
      rowDecoded sel f (Config.stride d.width) (decide (d.row = 0)) d.prior e.cur ∧
      (d.cur.wf = true → e.cur.wf = true) ∧ (d.out.wf = true → e.out.wf = true) := by
  have hSpos := stride_pos hw
  have hrow : 1 ≤ d.row.toNat ↔ d.row ≠ 0 := by
    constructor
    · intro h h0; rw [h0] at h; simp at h
    · intro h
      have : d.row.toNat ≠ 0 := fun e => h (BitVec.eq_of_toNat_eq e)
      omega
  have hstep : dfPush sel d = .next { d with sel := sel, col := 0, state := .data } := by
    simp [dfPush, hs, selectorStep, selLegal, hsel]
  have hne : f ≠ [] := by intro h; simp [h] at hf; omega
  obtain ⟨e, he, hee, h1, h2, h3, h4, h5, h6⟩ := pushRest f { d with sel := sel, col := 0, state := .data } rfl hne
    (by simpa using hf) hsel (by intro j hj; simp at hj) (fun h => hp (hrow.1 h))
  refine ⟨e, by simp only [dfPushAll, hstep, andThen_next]; exact he, hee, ?_, ?_, ?_, ?_, h5, h6⟩
  · intro j hj; exact h1 j (Or.inr hj)
  · intro a ha; exact h2 a (by simpa [outAddress] using ha)
  · intro j hj; exact h3 j (by simp) hj
  · intro j hj
    obtain ⟨n, p, ha, hb, hc, hp', hv⟩ := h4 j (by simp) hj
    refine ⟨n, ?_, ?_, ?_, ?_⟩
    · by_cases h3' : 3 ≤ j
      · rw [if_pos h3'] at ha; simpa [valueOr0, Nat.not_lt.2 h3'] using ha
      · rw [if_neg h3'] at ha; simpa [valueOr0, Nat.not_le.1 h3'] using ha
    · by_cases hr : d.row = 0
      · have hb' : ¬ 1 ≤ d.row.toNat := fun h => hrow.1 h hr
        simp only [hb', if_false] at hb; simpa [valueOr0, hr] using hb
      · simp only [hrow.2 hr, if_true] at hb; simpa only [valueOr0, decide_eq_false hr, Bool.false_eq_true, if_false] using hb
    · by_cases hr : d.row = 0
      · have hb' : ¬ 1 ≤ d.row.toNat := fun h => hrow.1 h hr
        simp only [hb', false_and, if_false] at hc; simpa [valueOr0, hr] using hc
      · by_cases h3' : 3 ≤ j
        · simp only [hrow.2 hr, h3', and_self, if_true] at hc
          simpa only [valueOr0, decide_eq_false hr, Bool.false_or, decide_eq_true_eq, Nat.not_lt.2 h3', if_false] using hc
        · simp only [h3', and_false, if_false] at hc
          simpa [valueOr0, hr, Nat.not_le.1 h3'] using hc
    · simp only [BitVec.ofNat_eq_ofNat, BitVec.toNat_ofNat, Nat.zero_mod, Nat.sub_zero] at hv
      rw [hv]
      rw [predictor_legal _ _ hsel] at hp'
      rw [← Host.Outcome.next.inj hp']; rfl

/-- A read token of the output leaves both units (42_host_operations.md R196). -/
@[simp] theorem readOut_df (a : Nat) (s : State) : (readOut a s).df = s.df := by
  unfold readOut; split_ifs
  · cases Memory.read s.df.out a <;> rfl
  · rfl

@[simp] theorem readOut_ic (a : Nat) (s : State) : (readOut a s).ic = s.ic := by
  unfold readOut; split_ifs
  · cases Memory.read s.df.out a <;> rfl
  · rfl

/-- Every instruction is the pushes of its own encoding into its unit (30_encoding.md R107). -/
theorem execWith_pushes (i : Instr) (s : State) :
    execWith P i s = deliverAll P (match i.unit with | .df => dfPushes (encode i) | .ic => icPushes (encode i)) s := by
  cases i <;> rfl

theorem exec_pushes (i : Instr) (s : State) :
    exec i s = deliverAll params (match i.unit with | .df => dfPushes (encode i) | .ic => icPushes (encode i)) s := by
  cases i <;> rfl

theorem encode_ne_nil (i : Instr) : encode i ≠ [] := by
  cases i <;> simp [encode, bytesBE]

/-- The bytes that lie together at the head of the tokens. -/
theorem dfBytes_append (bs : List Byte) (ts : List Token) : dfBytes (dfPushes bs ++ ts) = bs ++ dfBytes ts := by
  induction bs with
  | nil => rfl
  | cons b bs ih => simpa [dfPushes, dfBytes] using ih

theorem icBytes_append (bs : List Byte) (ts : List Token) : icBytes (icPushes bs ++ ts) = bs ++ icBytes ts := by
  induction bs with
  | nil => rfl
  | cons b bs ih => simpa [icPushes, icBytes] using ih

/-- As many tokens as there are bytes at the head are the pushes of these bytes. -/
theorem dfBytes_take (n : Nat) (ts : List Token) (h : n ≤ (dfBytes ts).length) :
    ts = dfPushes ((dfBytes ts).take n) ++ ts.drop n := by
  induction n generalizing ts with
  | zero => rfl
  | succ n ih =>
    cases ts with
    | nil => simp [dfBytes] at h
    | cons t ts =>
      cases t <;> simp [dfBytes] at h
      simp only [dfBytes, List.take_succ_cons, dfPushes, List.map_cons, List.drop_succ_cons, List.cons_append]
      congr 1; exact ih ts h

theorem icBytes_take (n : Nat) (ts : List Token) (h : n ≤ (icBytes ts).length) :
    ts = icPushes ((icBytes ts).take n) ++ ts.drop n := by
  induction n generalizing ts with
  | zero => rfl
  | succ n ih =>
    cases ts with
    | nil => simp [icBytes] at h
    | cons t ts =>
      cases t <;> simp [icBytes] at h
      simp only [icBytes, List.take_succ_cons, icPushes, List.map_cons, List.drop_succ_cons, List.cons_append]
      congr 1; exact ih ts h

end Sys2Proof.Machine
end

