-- ==== Sys2Proof/Tests/Slice0.lean ====
section
/-! SUPPORT. Tests on fixed values, their expected results from the vectors of 95_test_vectors.md (V1 to V35, P0 to P4) or
worked out by hand from the rules; and, for every statement with hypotheses, a witness that meets them. -/

namespace Sys2Proof.Tests

open Sys2Proof.Machine

/-! ### Helpers -/

/-- DF started on an image of `w` by `h` pixels. -/
def started (w h : Word) : State := State.reset.withDf { Df.reset with width := w, height := h, state := .select }

/-- Bytes at consecutive addresses from `a`. -/
def cells : Nat → List Byte → Memory
  | _, [] => []
  | a, b :: bs => (a, b) :: cells (a + 1) bs

/-- An outcome is a next state with the property. -/
def after (o : Result State) (p : State → Bool) : Bool :=
  match o with
  | .next s => p s
  | .fault _ => false
  | .refused _ => false

/-- The selectors and filtered bytes of a program, pushed. -/
def push (bytes : List Byte) (s : State) : Result State := deliverAll params (dfPushes bytes) s

/-- A block stream, pushed. -/
def pushIc (bytes : List Byte) (s : State) : Result State := deliverAll params (icPushes bytes) s

/-- 2 by 2 pixels, row 1, column 3, as in the table of 95_test_vectors.md 2.1. -/
def midRow : Df where
  state := .data
  width := 2
  height := 2
  row := 1
  col := 3
  sel := 4
  prior := cells 0 [11, 12, 13, 14, 15, 16]
  cur := cells 0 [21, 22, 23]
  errKind := .none
  errRow := 0
  errValue := 0
  out := cells 0 [11, 12, 13, 14, 15, 16, 21, 22, 23]

/-- 1 by 2 pixels, at the start of row 1. -/
def rowOne : Df where
  state := .select
  width := 1
  height := 2
  row := 1
  col := 0
  sel := 0
  prior := cells 0 [1, 2, 3]
  cur := cells 0 [1, 2, 3]
  errKind := .none
  errRow := 0
  errValue := 0
  out := cells 0 [1, 2, 3]

/-- A finished image of one pixel (program P0). -/
def finished : Df where
  state := .done
  width := 1
  height := 1
  row := 1
  col := 0
  sel := 0
  prior := cells 0 [10, 20, 30]
  cur := cells 0 [10, 20, 30]
  errKind := .none
  errRow := 0
  errValue := 0
  out := cells 0 [10, 20, 30]

/-- DF in FAULT by an illegal selector (vector V19a). -/
def faulted : Df := selectorFault 7 rowOne

/-- IC in phase PAYLOAD of record V22 with one byte to come. -/
def midBlock : Ic where
  phase := .payload
  cnt := 0
  len := 3
  rem := 1
  tag := ⟨0x74, 0x65, 0x53, 0x74⟩
  acc := 0xE529B581
  stored := 0
  errKind := .none
  errTag := zeroTag

/-- IC in FAULT by a mismatch (vector V24). -/
def faultedIc : Ic := { icRaise .checksumMismatch ⟨0x74, 0x65, 0x53, 0x74⟩ midBlock with rem := 0, cnt := 3 }

/-! ### WellFormed: one ill-formed term per check -/

theorem test_wf_rowNone_short : (Instr.rowNone [1, 2]).wellFormed 1 = false := by decide
theorem test_wf_rowSub_long : (Instr.rowSub [1, 2, 3, 4]).wellFormed 1 = false := by decide
theorem test_wf_rowUp_short : (Instr.rowUp [1, 2, 3]).wellFormed 2 = false := by decide
theorem test_wf_rowAvg_empty : (Instr.rowAvg []).wellFormed 1 = false := by decide
theorem test_wf_rowPaeth_long : (Instr.rowPaeth [1, 2, 3, 4, 5, 6]).wellFormed 1 = false := by decide
theorem test_wf_chkblk_length : (Instr.chkblk 3 zeroTag [1, 2] 0).wellFormed 0 = false := by decide
theorem test_wf_row_ok : (Instr.rowNone [10, 20, 30]).wellFormed 1 = true := by decide

/-! ### Decoding: words written out from 30_encoding.md, the vectors of 95_test_vectors.md -/

theorem test_decode_rowNone : decode .df 1 [0b00000000, 0x0A, 0x14, 0x1E] = .ok (.rowNone [10, 20, 30], []) := by rfl
theorem test_decode_rowSub :
    decode .df 2 [0b00000001, 5, 0, 0, 3, 0, 0, 9] = .ok (.rowSub [5, 0, 0, 3, 0, 0], [9]) := by rfl
theorem test_decode_rowUp : decode .df 1 [0b00000010, 1, 1, 1] = .ok (.rowUp [1, 1, 1], []) := by rfl
theorem test_decode_rowAvg :
    decode .df 2 [0b00000011, 201, 0, 255, 100, 7, 1] = .ok (.rowAvg [201, 0, 255, 100, 7, 1], []) := by rfl
theorem test_decode_rowPaeth : decode .df 1 [0b00000100, 9, 9, 9] = .ok (.rowPaeth [9, 9, 9], []) := by rfl
theorem test_decode_rowIllegal05 : decode .df 1 [0b00000101, 0, 0, 0] = .ok (.rowIllegal05, [0, 0, 0]) := by rfl
theorem test_decode_rowIllegal0607 :
    decode .df 1 [0b00000110] = .ok (.rowIllegal0607 0, []) ∧ decode .df 1 [0b00000111] = .ok (.rowIllegal0607 1, []) :=
  ⟨by rfl, by rfl⟩
theorem test_decode_rowIllegal080F :
    decode .df 1 [0b00001001] = .ok (.rowIllegal080F 1, []) ∧ decode .df 1 [0b00001111] = .ok (.rowIllegal080F 7, []) :=
  ⟨by rfl, by rfl⟩
theorem test_decode_rowIllegal101F :
    decode .df 1 [0b00010000] = .ok (.rowIllegal101F 0, []) ∧ decode .df 1 [0b00011111] = .ok (.rowIllegal101F 15, []) :=
  ⟨by rfl, by rfl⟩
theorem test_decode_rowIllegal203F :
    decode .df 1 [0b00100000] = .ok (.rowIllegal203F 0, []) ∧ decode .df 1 [0b00111111] = .ok (.rowIllegal203F 31, []) :=
  ⟨by rfl, by rfl⟩
theorem test_decode_rowIllegal407F :
    decode .df 1 [0b01000000] = .ok (.rowIllegal407F 0, []) ∧ decode .df 1 [0b01111111] = .ok (.rowIllegal407F 63, []) :=
  ⟨by rfl, by rfl⟩
theorem test_decode_rowIllegal80FF :
    decode .df 1 [0b10000000] = .ok (.rowIllegal80FF 0, []) ∧ decode .df 1 [0b11111111] = .ok (.rowIllegal80FF 127, []) :=
  ⟨by rfl, by rfl⟩

/-- Vector V23, with the next record's first byte behind it. -/
theorem test_decode_chkblk_empty :
    decode .ic 0 [0, 0, 0, 0, 0x61, 0x62, 0x43, 0x44, 0x43, 0x68, 0xC9, 0x7B, 0x55] =
      .ok (.chkblk 0 ⟨0x61, 0x62, 0x43, 0x44⟩ [] 0x4368C97B, [0x55]) := by rfl

/-- Vector V29. -/
theorem test_decode_chkblk_one :
    decode .ic 0 [0, 0, 0, 1, 0x00, 0xFF, 0x80, 0x7F, 0x01, 0x26, 0xB2, 0xBF, 0xC3] =
      .ok (.chkblk 1 ⟨0x00, 0xFF, 0x80, 0x7F⟩ [0x01] 0x26B2BFC3, []) := by rfl

theorem test_decode_none : decode .df 1 [] = .error .noBytes ∧ decode .ic 1 [] = .error .noBytes := ⟨by rfl, by rfl⟩
theorem test_decode_truncated_row : decode .df 1 [0, 1, 2] = .error .truncatedRow := by rfl
theorem test_decode_truncated_block :
    decode .ic 0 [0, 0, 0, 1, 0x61, 0x62, 0x43, 0x44, 9, 0x43, 0x68, 0xC9] = .error .truncatedBlock := by rfl

/-- The fields of R97 and R98: bytes `12 34 56 78` and `FF FF FF FF`. -/
theorem test_wordBE : wordBE 0x12 0x34 0x56 0x78 = 0x12345678 ∧ wordBE 255 255 255 255 = 4294967295 := by decide
theorem test_bytesBE : bytesBE 0x12345678 = [0x12, 0x34, 0x56, 0x78] := by decide

theorem test_table_rows :
    decodeTableWord 8 0x00 = some (.rowNone [0, 0, 0]) ∧ decodeTableWord 8 0x04 = some (.rowPaeth [0, 0, 0]) ∧
    decodeTableWord 8 0x83 = some (.rowIllegal80FF 3) ∧ decodeTableWord 32 0x03020101 = some (.rowSub [1, 2, 3]) := by
  decide
theorem test_table_chkblk : decodeTableWord 0 0 = some (.chkblk 0 zeroTag [] 0) := by decide

/-! ### The step runs what is placed -/

theorem test_fetch_row :
    after (step (State.reset.withFetchWord 32 0x1E140A00)) (fun s => s.df.state == .done && s.df.out == cells 0 [10, 20, 30]) =
      true := by decide
theorem test_fetch_illegal :
    after (step (State.reset.withFetchWord 8 0x83)) (fun s => s.df.errKind == .invalidFilterSelector && s.df.errValue == 0x83) =
      true := by decide

/-- The stored checksum of a record of zero bytes is not `0x00000000` but `0x2144DF1C` (V20), so IC raises. -/
theorem test_fetch_block :
    after (step (State.reset.withFetchWord 0 0)) (fun s => s.ic.errKind == .checksumMismatch && s.host.pending == []) =
      true := by decide +kernel
theorem test_step_waits : step State.reset = .fault .awaitingToken := by rfl

/-! ### The operands (95_test_vectors.md 2.1 to 2.4) -/

theorem test_mux_interior : neighborMux midRow = .next ⟨21, 14, 11⟩ := by rfl
theorem test_mux_first_row : neighborMux { midRow with row := 0 } = .next ⟨21, 0, 0⟩ := by rfl
theorem test_mux_first_pixel : neighborMux { midRow with col := 2 } = .next ⟨0, 13, 0⟩ := by rfl
theorem test_mux_unwritten : neighborMux { midRow with prior := [] } = .fault (.unwrittenPrior 3) := by rfl

theorem test_avg : avg 255 0 = 127 ∧ avg 255 255 = 255 ∧ avg 200 100 = 150 ∧ avg 1 0 = 0 := by decide
theorem test_paeth_source : paeth 10 20 15 = 15 := by decide
theorem test_paeth_ties : paeth 5 5 5 = 5 ∧ paeth 6 12 10 = 6 ∧ paeth 12 6 10 = 6 ∧ paeth 10 10 20 = 10 := by decide
theorem test_paeth_wide : paeth 200 100 20 = 200 ∧ paeth 10 20 200 = 10 ∧ paeth 130 44 100 = 100 := by decide
theorem test_reconstruct :
    reconstruct 1 255 = 0 ∧ reconstruct 255 255 = 254 ∧ reconstruct 100 200 = 44 ∧ reconstruct 128 128 = 0 := by decide

/-! ### The row operations -/

/-- V2, program P0. -/
theorem test_rowNone :
    after (exec (.rowNone [10, 20, 30]) (started 1 1)) (fun s => s.df.state == .done && s.df.out == cells 0 [10, 20, 30]) =
      true := by decide

/-- V3. -/
theorem test_rowSub_source :
    after (exec (.rowSub [5, 0, 0, 3, 0, 0]) (started 2 1)) (fun s => s.df.out == cells 0 [5, 0, 0, 8, 0, 0]) = true := by
  decide

/-- V15. -/
theorem test_rowSub_wraps :
    after (exec (.rowSub [200, 0, 255, 100, 0, 1]) (started 2 1)) (fun s => s.df.out == cells 0 [200, 0, 255, 44, 0, 0]) =
      true := by decide

/-- V14's second row. -/
theorem test_rowUp :
    after (exec (.rowUp [1, 1, 1]) (State.reset.withDf rowOne)) (fun s =>
      s.df.state == .done && s.df.row == 2 && s.df.out == cells 0 [1, 2, 3, 2, 3, 4]) = true := by decide

/-- V17. -/
theorem test_rowAvg_first_row :
    after (exec (.rowAvg [201, 0, 255, 100, 7, 1]) (started 2 1)) (fun s =>
      s.df.out == cells 0 [201, 0, 255, 200, 7, 128]) = true := by decide

/-- V18: row 0 by Paeth, row 1 by Average. -/
theorem test_rowAvg_second_row :
    after (push [4, 10, 20, 30, 5, 250, 1, 255, 255, 255, 3, 1, 2, 3, 4, 5, 6, 7, 8, 9] (started 3 2)) (fun s =>
      s.df.state == .done &&
      s.df.out == cells 0 [10, 20, 30, 15, 14, 31, 14, 13, 30, 6, 12, 18, 14, 18, 30, 21, 23, 39]) = true := by decide

/-- P4: Paeth picks each of its candidates. -/
theorem test_rowPaeth :
    after (push [0x04, 0xC8, 0x64, 0x32, 0x64, 0xC8, 0xFA, 1, 2, 3, 0x04, 0x14, 0x1E, 0x28, 0, 0, 0, 0xC8, 0x64, 7]
      (started 3 2)) (fun s =>
      s.df.state == .done &&
      s.df.out == cells 0 [200, 100, 50, 44, 44, 44, 45, 46, 47, 220, 130, 90, 44, 100, 90, 245, 200, 97]) = true := by
  decide

/-- P2b: two of three filtered bytes of the second row. -/
theorem test_rowPaeth_first_pixel :
    after (push [4, 9, 9] (State.reset.withDf rowOne)) (fun s =>
      s.df.state == .data && s.df.col == 2 && s.df.sel == 4 && s.df.cur == cells 0 [10, 11, 3]) = true := by decide

/-- V19a: ERR_ROW 1, ERR_VALUE 7, ROW and COL kept, the bytes behind it ignored. -/
theorem test_rowIllegal0607 :
    after (push [7, 9, 9, 9] (State.reset.withDf rowOne)) (fun s => s.df == faulted && s.df.errRow == 1) = true := by decide

/-- V19e. -/
theorem test_rowIllegal05 :
    after (exec .rowIllegal05 (started 1 1)) (fun s => s.df.state == .fault && s.df.errValue == 5) = true := by decide

/-- V19g: 0x09 is not Sub. -/
theorem test_rowIllegal080F :
    after (exec (.rowIllegal080F 1) (started 1 1)) (fun s => s.df.state == .fault && s.df.errValue == 9) = true := by decide

/-- The rows of 30_encoding.md R104 between: 0x10, 0x3F, 0x40. -/
theorem test_rowIllegal_middle :
    after (exec (.rowIllegal101F 0) (started 1 1)) (fun s => s.df.errValue == 0x10) = true ∧
    after (exec (.rowIllegal203F 31) (started 1 1)) (fun s => s.df.errValue == 0x3F) = true ∧
    after (exec (.rowIllegal407F 0) (started 1 1)) (fun s => s.df.errValue == 0x40) = true := by decide

/-- V19f. -/
theorem test_rowIllegal80FF :
    after (exec (.rowIllegal80FF 127) (started 1 1)) (fun s => s.df.state == .fault && s.df.errValue == 255) = true := by
  decide

/-! ### The other DF tokens -/

/-- V19h, V19i. -/
theorem test_start_zero :
    after (deliver params (.dfStart 0 5) State.reset) (fun s => s.df.errKind == .invalidDimensions && s.df.errRow == 0) = true ∧
    after (deliver params (.dfStart 5 0) State.reset) (fun s => s.df.errKind == .invalidDimensions) = true := by decide

/-- The largest dimensions of the default limits. -/
theorem test_start_largest :
    after (deliver params (.dfStart 0xFFFFFFFF 0xFFFFFFFF) State.reset) (fun s =>
      s.df.state == .select && s.df.height == 0xFFFFFFFF) = true := by decide

/-- V19b, V19d: DF.EOS in DATA and in DONE. -/
theorem test_dfEos :
    after (deliver params .dfEos (State.reset.withDf midRow)) (fun s =>
      s.df.errKind == .truncatedInput && s.df.col == 3 && s.df.out == midRow.out) = true ∧
    deliver params .dfEos (State.reset.withDf finished) = .next (State.reset.withDf finished) := ⟨by decide, rfl⟩

theorem test_dfReset_keeps_out :
    after (deliver params .dfReset (State.reset.withDf finished)) (fun s =>
      s.df.state == .idle && s.df.prior == [] && s.df.out == cells 0 [10, 20, 30]) = true := by decide

/-- In mid-block: nine registers as 10_state.md R51 lists them. -/
theorem test_icReset :
    deliver params .icReset (State.reset.withIc midBlock) = .next (State.reset.withIc
      ⟨.len, 0, 0, 0, ⟨0, 0, 0, 0⟩, 0xFFFFFFFF, 0, .none, ⟨0, 0, 0, 0⟩⟩) := by rfl
theorem test_readOut :
    after (deliver params (.dfReadOut 2) (State.reset.withDf finished)) (fun s => s.host.replies == [.outByte 2 30]) = true := by
  decide
theorem test_dfReadStatus :
    after (deliver params .dfReadStatus (State.reset.withDf midRow)) (fun s => s.host.replies == [.dfStatus
      ⟨.data, true, false, false, 2, 2, 1, 3, .none, 0, 0⟩]) = true := by decide

/-! ### The checksum and the block records -/

/-- V20. -/
theorem test_checksum_values :
    checksum crc32 [] = 0 ∧ checksum crc32 [0x61] = 0xE8B7BE43 ∧ checksum crc32 [0, 0, 0, 0] = 0x2144DF1C := by decide +kernel

/-- V20: "123456789". -/
theorem test_checksum_check :
    checksum crc32 [0x31, 0x32, 0x33, 0x34, 0x35, 0x36, 0x37, 0x38, 0x39] = 0xCBF43926 := by decide +kernel

/-- V21: the first shift step and the first byte. -/
theorem test_checksum_trace : crcShift 0xFFFFFF9E = 0x7FFFFFCF ∧ crcUpdate crcInit 0x61 = 0x174841BC := by decide +kernel

/-- V22. -/
theorem test_chkblk_good :
    after (exec (.chkblk 3 ⟨0x74, 0x65, 0x53, 0x74⟩ [0x0A, 0x14, 0x1E] 0x9FAA589F) State.reset) (fun s =>
      s.ic.phase == .len && s.ic.cnt == 0 && s.host.verdicts == [⟨⟨0x74, 0x65, 0x53, 0x74⟩, 3⟩]) = true := by decide +kernel

/-- V27: the stored checksum's bytes the other way round. -/
theorem test_chkblk_swapped :
    after (exec (.chkblk 3 ⟨0x74, 0x65, 0x53, 0x74⟩ [0x0A, 0x14, 0x1E] 0x9F58AA9F) State.reset) (fun s =>
      s.ic.errKind == .checksumMismatch && s.ic.errTag == ⟨0x74, 0x65, 0x53, 0x74⟩ && s.host.verdicts == [] &&
      s.ic.cnt == 3 && s.ic.stored == 0x009F58AA) = true := by
  decide +kernel

/-- V30: the end inside the payload. -/
theorem test_icEos_payload :
    after (deliver params .icEos (State.reset.withIc midBlock)) (fun s =>
      s.ic.phase == .fault && s.ic.errKind == .truncatedInput && s.ic.rem == 1 && s.ic.errTag == zeroTag) = true := by decide

/-- V31, V33: the end inside the length; at the boundary. -/
theorem test_icEos_length :
    after (deliverAll params (icPushes [0, 0] ++ [.icEos]) State.reset) (fun s => s.ic.phase == .fault && s.ic.cnt == 2) = true ∧
    deliver params .icEos State.reset = .next State.reset := ⟨by decide, rfl⟩

/-- 60_exceptions.md R223. -/
theorem test_errCodes :
    [ErrKind.none, .badMagic, .truncatedInput, .checksumMismatch, .unsupportedVariant, .invalidDimensions,
      .invalidFilterSelector, .decompressionError].map errCode = [0, 1, 2, 3, 4, 5, 6, 7] := by decide

/-! ### Witnesses: the hypotheses of the statements can be met -/

/-- Where every listed address is below `n`, nothing from `n` on has a value. -/
theorem emptyFrom_of_all (m : Memory) (n : Nat) (h : m.all (fun c => decide (c.1 < n)) = true) : emptyFrom m n := by
  intro i hi
  induction m with
  | nil => rfl
  | cons c m ih =>
    simp only [List.all_cons, Bool.and_eq_true, decide_eq_true_eq] at h
    have hne : c.1 ≠ i := by omega
    simp only [Memory.read, hne, if_false]
    exact ih h.2

theorem witness_reset_df_inv : DfInv Df.reset := by
  constructor <;> simp [Df.reset, running, emptyFrom, Memory.read, Memory.wf, Memory.risingFrom]

theorem witness_midRow_inv : DfInv midRow where
  wf := by decide
  data := by decide
  select := by decide
  done := by decide
  dims := by decide
  fault := by decide
  errFields := by decide
  errKinds := by decide
  lines := ⟨emptyFrom_of_all _ _ (by decide), emptyFrom_of_all _ _ (by decide)⟩
  fresh := by decide
  priorRow := by decide
  curRow := by decide
  outWritten := by decide

theorem witness_rowOne_inv : DfInv rowOne where
  wf := by decide
  data := by decide
  select := by decide
  done := by decide
  dims := by decide
  fault := by decide
  errFields := by decide
  errKinds := by decide
  lines := ⟨emptyFrom_of_all _ _ (by decide), emptyFrom_of_all _ _ (by decide)⟩
  fresh := by decide
  priorRow := by decide
  curRow := by decide
  outWritten := by decide

theorem witness_finished_inv : DfInv finished where
  wf := by decide
  data := by decide
  select := by decide
  done := by decide
  dims := by decide
  fault := by decide
  errFields := by decide
  errKinds := by decide
  lines := ⟨emptyFrom_of_all _ _ (by decide), emptyFrom_of_all _ _ (by decide)⟩
  fresh := by decide
  priorRow := by decide
  curRow := by decide
  outWritten := by decide

theorem witness_faulted_inv : DfInv faulted where
  wf := by decide
  data := by decide
  select := by decide
  done := by decide
  dims := by decide
  fault := by decide
  errFields := by decide
  errKinds := by decide
  lines := ⟨emptyFrom_of_all _ _ (by decide), emptyFrom_of_all _ _ (by decide)⟩
  fresh := by decide
  priorRow := by decide
  curRow := by decide
  outWritten := by decide

theorem witness_midBlock_inv : IcInv midBlock := by constructor <;> decide
theorem witness_faultedIc_inv : IcInv faultedIc := by constructor <;> decide

/-- A running machine with tokens to deliver, and the step it takes. -/
def busy : State := ((State.reset.withDf midRow).withIc midBlock).withPending [.dfPush 9, .icPush 0x1E]

theorem witness_StepKeepsInvariants : MachineInv busy ∧ ∃ t, step busy = .next t :=
  ⟨⟨witness_midRow_inv, witness_midBlock_inv⟩, _, rfl⟩
theorem witness_StepNeverStopsWithToken : MachineInv busy ∧ busy.host.pending ≠ [] :=
  ⟨⟨witness_midRow_inv, witness_midBlock_inv⟩, by decide⟩
/-- With smaller limits, a DF.START that is refused. -/
theorem witness_StepNeverStopsWithToken_refused :
    ∃ P : Config.Params, stepWith P (State.reset.withPending [.dfStart 5 3]) = .refused (.dimensionsBeyondLimits 5 3) :=
  ⟨{ maxW := 4, maxH := 3, checksum := crc32 }, rfl⟩
theorem witness_TokenKeepsInvariants : MachineInv busy ∧ ∃ u, deliver params (.icPush 0x1E) busy = .next u :=
  ⟨⟨witness_midRow_inv, witness_midBlock_inv⟩, _, rfl⟩

theorem witness_DecodeOfEncode :
    (Instr.rowPaeth [1, 2, 3]).wellFormed 1 = true ∧ (Instr.chkblk 1 zeroTag [9] 5).wellFormed 0 = true ∧
    (Instr.rowIllegal80FF 127).wellFormed 7 = true := by decide
theorem witness_EncodeOfDecode :
    decode .df 1 [2, 1, 1, 1, 0] = .ok (.rowUp [1, 1, 1], [0]) ∧ decode .df 1 [6] = .ok (.rowIllegal0607 0, []) := ⟨rfl, rfl⟩

theorem witness_StepRunsRowRecord :
    let s := (State.reset.withDf rowOne).withPending (dfPushes (encode (.rowUp [1, 1, 1])) ++ [.dfEos])
    s.df.state = .select ∧ (Instr.rowUp [1, 1, 1]).unit = .df ∧ (Instr.rowUp [1, 1, 1]).wellFormed s.df.width = true ∧
      s.host.pending = dfPushes (encode (.rowUp [1, 1, 1])) ++ [.dfEos] := by decide
theorem witness_StepRunsBlockRecord :
    let s := State.reset.withPending (icPushes (encode (.chkblk 0 zeroTag [] 7)) ++ [.icEos])
    s.ic.phase = .len ∧ s.ic.cnt = 0 ∧ (Instr.chkblk 0 zeroTag [] 7).unit = .ic ∧
      (Instr.chkblk 0 zeroTag [] 7).wellFormed s.df.width = true ∧
      s.host.pending = icPushes (encode (.chkblk 0 zeroTag [] 7)) ++ [.icEos] := by decide
theorem witness_StepDeliversOneToken :
    busy.host.pending = .dfPush 9 :: [.icPush 0x1E] ∧ (∀ b, Token.dfPush 9 = .dfPush b → busy.df.state ≠ .select) ∧
      (∀ x, Token.dfPush 9 = .icPush x → atBoundary busy.ic = false) :=
  ⟨rfl, fun _ _ => by decide, fun _ h => by cases h⟩

/-- Limits smaller than the default ones. -/
def smallLimits : Config.Params := { maxW := 4, maxH := 3, checksum := crc32 }

/-- The clauses at the limits, and the default limits' largest dimensions. -/
theorem witness_StartByCases :
    State.reset.df.state = .idle ∧
    deliver smallLimits (.dfStart 0 3) State.reset =
      .next (State.reset.withDf { Df.reset with state := .fault, errKind := .invalidDimensions }) ∧
    deliver smallLimits (.dfStart 5 0) State.reset =
      .next (State.reset.withDf { Df.reset with state := .fault, errKind := .invalidDimensions }) ∧
    deliver smallLimits (.dfStart 5 3) State.reset = .refused (.dimensionsBeyondLimits 5 3) ∧
    deliver smallLimits (.dfStart 4 4) State.reset = .refused (.dimensionsBeyondLimits 4 4) ∧
    deliver smallLimits (.dfStart 4 3) State.reset = .next (started 4 3) ∧
    midRow.state ≠ .idle := ⟨rfl, rfl, rfl, rfl, rfl, rfl, by decide⟩
theorem witness_IllegalTokensIgnored :
    midRow.state ≠ .idle ∧ (finished.state ≠ .select ∧ finished.state ≠ .data) ∧ faultedIc.phase = .fault ∧
      midRow.state ≠ .done := by decide

theorem witness_NeighborMuxByPosition :
    neighborMux { midRow with col := 2 } = .next ⟨0, 13, 0⟩ ∧ neighborMux midRow = .next ⟨21, 14, 11⟩ ∧
    neighborMux { midRow with row := 0 } = .next ⟨21, 0, 0⟩ := ⟨rfl, rfl, rfl⟩
theorem witness_PaethPicksNearest :
    (∃ p : Int, p = ((200 : Byte).toNat : Int) + (100 : Byte).toNat - (20 : Byte).toNat ∧ p = 280) ∧
    paeth 200 100 20 = 200 ∧ paeth 236 182 227 = 182 ∧ paeth 130 44 100 = 100 := ⟨⟨280, by decide, rfl⟩, by decide⟩
theorem witness_SelectorStepByByte :
    (State.reset.withDf rowOne).df.state = .select ∧ (4 : Byte).toNat ≤ 4 ∧ 4 < (5 : Byte).toNat := by decide

/-- In the middle of a row; at its end with rows to come; at the end of the last row. -/
theorem witness_DataStepStoresAndAdvances :
    midRow.state = .data ∧ midRow.sel.toNat ≤ 4 ∧ neighborMux midRow = .next ⟨21, 14, 11⟩ ∧
      midRow.col.toNat + 1 < Config.stride midRow.width ∧
    (let d := { midRow with col := 5, cur := cells 0 [21, 22, 23, 24, 25] }
     neighborMux d = .next ⟨23, 16, 13⟩ ∧ d.col.toNat + 1 = Config.stride d.width ∧
       d.row.toNat + 1 = d.height.toNat ∧ d.row.toNat + 1 < ({ d with height := 3 } : Df).height.toNat) :=
  ⟨rfl, by decide, rfl, by decide, rfl, by decide, by decide, by decide⟩

/-- For RowNoneCopies to RowPaethAddsPaeth and FirstRowEquivalences. -/
theorem witness_RowReady_first_row : RowReady [10, 20, 30] (started 1 1).df ∧ (started 1 1).df.row = 0 := by decide
/-- For RowNoneCopies to RowPaethAddsPaeth and RowIgnoresHeight. -/
theorem witness_RowReady_second_row : RowReady [1, 1, 1] rowOne ∧ rowOne.row ≠ 0 := by decide
theorem witness_IllegalSelectorsRaise : (State.reset.withDf rowOne).df.state = .select := by decide
theorem witness_RowRecordsIgnoredOutsideRun :
    Instr.rowIllegal05.unit = .df ∧ faulted.state ≠ .select ∧ faulted.state ≠ .data := by decide

/-- The record's 4 bytes at addresses 9 to 12: address 8 and address 13 are outside. -/
theorem witness_RowRecordFrame :
    (Instr.rowNone [9, 9, 9]).unit = .df ∧ DfInv midRow ∧
      outAddress midRow = 9 ∧ (encode (.rowNone [9, 9, 9])).length = 4 ∧
      ∃ t, exec (.rowNone [9, 9, 9]) (State.reset.withDf midRow) = .next t :=
  ⟨rfl, witness_midRow_inv, by decide, rfl, _, rfl⟩

/-- Two second rows that agree on channel 2 only, the second one by Average. -/
theorem witness_ChannelsIndependent :
    let d' : Df := { rowOne with prior := cells 0 [7, 8, 3] }
    (3 : Byte).toNat ≤ 4 ∧ RowReady [1, 2, 5] rowOne ∧ RowReady [3, 4, 5] d' ∧ d'.width = rowOne.width ∧
      (d'.row = 0 ↔ rowOne.row = 0) ∧
      ∀ i, i < Config.stride rowOne.width → i % 3 = 2 →
        ([3, 4, 5] : List Byte).getD i 0 = ([1, 2, 5] : List Byte).getD i 0 ∧ d'.prior.read i = rowOne.prior.read i := by
  decide

/-- Target row `[8, 8, 8]` under Up below `[1, 2, 3]`: filtered bytes `[7, 6, 5]`. -/
theorem witness_FilteredRowDecodesBack :
    (2 : Byte).toNat ≤ 4 ∧ RowReady [7, 6, 5] rowOne ∧ ([8, 8, 8] : List Byte).length = Config.stride rowOne.width ∧
    ∀ i, i < Config.stride rowOne.width →
      let n : Neighbors := ⟨0, ([1, 2, 3] : List Byte).getD i 0, 0⟩
      n.left = (if i < 3 then 0 else ([8, 8, 8] : List Byte).getD (i - 3) 0) ∧
      valueOr0 (decide (rowOne.row = 0)) rowOne.prior i n.above ∧
      valueOr0 (decide (rowOne.row = 0) || decide (i < 3)) rowOne.prior (i - 3) n.aboveLeft ∧
      ([7, 6, 5] : List Byte).getD i 0 = ([8, 8, 8] : List Byte).getD i 0 - pred 2 n := by decide

theorem witness_WholeImageClosedForm :
    let rows : List (Byte × List Byte) := [(0, [1, 2, 3]), (4, [9, 9, 9]), (1, [5, 6, 7])]
    (1 : Word) ≠ 0 ∧ (3 : Word) ≠ 0 ∧ (1 : Word).toNat ≤ smallLimits.maxW.toNat ∧
    (3 : Word).toNat ≤ smallLimits.maxH.toNat ∧ rows.length = (3 : Word).toNat ∧
    ∀ r ∈ rows, r.1.toNat ≤ 4 ∧ r.2.length = Config.stride 1 := by decide

/-- The last byte of the whole program, and a byte in its middle. -/
theorem witness_PushAdvancesByOne :
    DfInv midRow ∧ midRow.state = .data ∧ (∃ e, dfPush 9 midRow = .next e ∧ e.state ≠ .fault) ∧
    DfInv rowOne ∧ rowOne.state = .select ∧ ∃ e, dfPush 4 rowOne = .next e ∧ e.state ≠ .fault :=
  ⟨witness_midRow_inv, rfl, ⟨_, rfl, by decide⟩, witness_rowOne_inv, rfl, _, rfl, by decide⟩

/-- `midRow` has taken 11 of 14 bytes: two more leave it running, three more end it. -/
theorem witness_RunEndsAfterWholeProgram :
    DfInv midRow ∧ midRow.state = .data ∧ consumed midRow + ([9, 9] : List Byte).length < programLength midRow ∧
      programLength midRow ≤ consumed midRow + ([9, 9, 9] : List Byte).length := ⟨witness_midRow_inv, by decide⟩
theorem witness_OutputAddressesRise : DfInv midRow ∧ midRow.state = .data ∧ ∃ e, dfPush 9 midRow = .next e :=
  ⟨witness_midRow_inv, rfl, _, rfl⟩
theorem witness_DimensionsFixedDuringRun :
    (∃ u, deliver params (.dfStart 7 7) (State.reset.withDf midRow) = .next u) ∧ Token.dfStart 7 7 ≠ .dfReset ∧
      (State.reset.withDf midRow).df.state ≠ .idle := ⟨⟨_, rfl⟩, by decide⟩

theorem witness_DfEosByState :
    rowOne.state = .select ∧ midRow.state = .data ∧ finished.state = .done ∧ faulted.state = .fault ∧
      Df.reset.state = .idle := by decide
theorem witness_IcEosByPhase :
    faultedIc.phase = .fault ∧ (Ic.reset.phase = .len ∧ Ic.reset.cnt = 0) ∧
      (midBlock.phase ≠ .fault ∧ ¬ (midBlock.phase = .len ∧ midBlock.cnt = 0)) ∧
      (({ Ic.reset with cnt := 3 } : Ic).phase ≠ .fault ∧
        ¬ (({ Ic.reset with cnt := 3 } : Ic).phase = .len ∧ ({ Ic.reset with cnt := 3 } : Ic).cnt = 0)) := by decide

/-- Each of the three causes of DF and the two of IC (OneCausePerToken, FaultsArePrecise). -/
theorem witness_OneCausePerToken :
    after (deliver params (.dfPush 5) (State.reset.withDf rowOne)) (fun u => u.df.state == .fault) = true ∧
    after (deliver params .dfEos (State.reset.withDf midRow)) (fun u => u.df.state == .fault) = true ∧
    after (deliver params (.dfStart 0 0) State.reset) (fun u => u.df.state == .fault) = true ∧
    after (deliver params (.icPush 0) (State.reset.withIc { midBlock with phase := .crc, cnt := 3 })) (fun u =>
      u.ic.phase == .fault) = true ∧
    after (deliver params .icEos (State.reset.withIc midBlock)) (fun u => u.ic.phase == .fault) = true := by decide +kernel
theorem witness_FaultIsSticky :
    faulted.state = .fault ∧ Token.dfReset ∉ [Token.dfStart 1 1, .dfPush 0, .dfEos] ∧ faultedIc.phase = .fault ∧
      Token.icReset ∉ [Token.icPush 0, .icEos, .dfReset] := by decide
theorem witness_InterleavingIrrelevant :
    ∃ t, deliverAll params [.icPush 0, .dfStart 1 1, .icPush 0, .dfPush 0, .dfReadOut 3, .icReadStatus] State.reset = .next t :=
  ⟨_, rfl⟩

/-- Each clause, at the counts where they meet. -/
theorem witness_BlockPhaseSteps :
    (Ic.reset.phase = .len ∧ ({ Ic.reset with cnt := 2 } : Ic).cnt.toNat < 3) ∧ ({ Ic.reset with cnt := 3 } : Ic).cnt = 3 ∧
    ({ Ic.reset with phase := .tag, cnt := 2 } : Ic).cnt.toNat < 3 ∧ midBlock.phase = .payload ∧ midBlock.rem = 1 ∧
    (let c : Ic := { midBlock with phase := .crc, cnt := 3, acc := 0x6055A760, stored := 0x009FAA58 }
     crc32.final c.acc = (c.stored <<< 8) + (0x9F : Byte).zeroExtend 32 ∧
     crc32.final c.acc ≠ (c.stored <<< 8) + (0x9E : Byte).zeroExtend 32) := by decide +kernel
theorem witness_LengthAssembledBigEndian : Ic.reset.phase = .len ∧ Ic.reset.cnt = 0 := by decide

/-- No payload byte yet, and all of them. -/
theorem witness_AccumulatorAbsorbsTagAndPayload :
    Ic.reset.phase = .len ∧ Ic.reset.cnt = 0 ∧ ([] : List Byte).length ≤ (2 : Word).toNat ∧
      ([1, 2] : List Byte).length ≤ (2 : Word).toNat := by decide
/-- For BlockCheckForEveryChecksum and ChkblkChecksRecord: a good record, and one with a bad stored checksum. -/
theorem witness_BlockCheck :
    Ic.reset.phase = .len ∧ Ic.reset.cnt = 0 ∧ ([] : List Byte).length = (0 : Word).toNat ∧
      checksum crc32 (tagBytes ⟨0x61, 0x62, 0x43, 0x44⟩ ++ []) = 0x4368C97B ∧
      checksum crc32 (tagBytes ⟨0x61, 0x62, 0x43, 0x44⟩ ++ []) ≠ 0x4368C97A := by decide +kernel
/-- V24; the two bytes for ChecksumSeparatesSingleByte too. -/
theorem witness_CorruptedPayloadDetected :
    Ic.reset.phase = .len ∧ Ic.reset.cnt = 0 ∧ ([0x0A] ++ 0x14 :: [0x1E] : List Byte).length = (3 : Word).toNat ∧
      (0x15 : Byte) ≠ 0x14 := by decide
theorem witness_ChkblkOkAccepted : Ic.reset.phase = .len ∧ Ic.reset.cnt = 0 ∧ ([10, 20, 30] : List Byte).length < 2 ^ 32 := by
  decide

/-- The last address of the image, and the first beyond it. -/
theorem witness_ReadOutReturnsImage :
    DfInv finished ∧ finished.state = .done ∧ 2 < finished.height.toNat * Config.stride finished.width ∧
      ¬ (finished.state = .done ∧ 3 < finished.height.toNat * Config.stride finished.width) :=
  ⟨witness_finished_inv, by decide⟩

end Sys2Proof.Tests
end

section
/-! PROOFS of the family 00_scope.md: the machine's step against the spec's one-token steps (R7, log entry 6), and the OPEN
parameters (R5). The one idea: fetching only groups the host's tokens, it neither drops nor invents one. -/

namespace Sys2Proof.Machine

variable {P : Config.Params}

/-! ### The OPEN parameters -/

theorem exec_eq_execWith (i : Instr) (s : State) : exec i s = execWith params i s := by
  rw [exec_pushes, execWith_pushes]

theorem step_eq_stepWith (s : State) : step s = stepWith params s := by
  have hexec : exec = execWith params := funext fun i => funext (exec_eq_execWith i)
  rw [step, stepWith, hexec]

/-- A row record is bytes pushed into DF, whose reaction to a push takes no parameter. -/
theorem execWith_df {i : Instr} (h : i.unit = .df) (s : State) :
    execWith P i s = onDf (dfPushAll (encode i) s.df) s := by
  rw [execWith_pushes, h, deliverAll_dfPushes]

/-- Settles O60: exec is execWith at params by the encodings, and row records push into DF alone. -/
theorem defaultsAreOneInstance : Obligations.DefaultsAreOneInstance := by
  refine ⟨rfl, step_eq_stepWith, exec_eq_execWith, fun P i s h => ?_⟩
  rw [exec_eq_execWith, execWith_df h, execWith_df h]

/-! ### A decoded record is made of the bytes it was read from -/

theorem selLegal_cases {sel : Byte} (h : selLegal sel = true) : sel = 0 ∨ sel = 1 ∨ sel = 2 ∨ sel = 3 ∨ sel = 4 := by
  simp only [selLegal, decide_eq_true_eq] at h
  bv_omega

theorem rowInstr_unit (sel : Byte) (f : List Byte) : (rowInstr sel f).unit = .df := by
  simp only [rowInstr, apply_ite Instr.unit]
  simp only [Instr.unit, ite_self]

/-- The selector's pattern and its free low bits give back the whole byte (30_encoding.md R104). -/
theorem encode_rowInstr_nil : ∀ sel : Byte, encode (rowInstr sel []) = [sel] := by decide

theorem encode_rowInstr_legal {sel : Byte} (h : selLegal sel = true) (f : List Byte) :
    encode (rowInstr sel f) = sel :: f := by
  rcases selLegal_cases h with rfl | rfl | rfl | rfl | rfl <;> rfl

theorem decodeRow_ok {width : Word} {bytes rest : List Byte} {i : Instr} (h : decodeRow width bytes = .ok (i, rest)) :
    i.unit = .df ∧ encode i ++ rest = bytes := by
  cases bytes with
  | nil => cases h
  | cons sel bs =>
    simp only [decodeRow] at h
    split_ifs at h with hsel
    · cases h
      exact ⟨rowInstr_unit _ _, by rw [encode_rowInstr_legal hsel, List.cons_append, List.take_append_drop]⟩
    · cases h
      exact ⟨rowInstr_unit _ _, by rw [encode_rowInstr_nil]; rfl⟩

theorem decodeCrc_ok {length : Word} {tag : Tag} {payload bytes rest : List Byte} {i : Instr}
    (h : decodeCrc length tag payload bytes = .ok (i, rest)) :
    ∃ crc, i = .chkblk length tag payload crc ∧ bytesBE crc ++ rest = bytes := by
  unfold decodeCrc at h
  split at h
  · cases h
    exact ⟨_, rfl, by rw [bytesBE_wordBE]; rfl⟩
  · cases h

theorem decodeBlk_ok {bytes rest : List Byte} {i : Instr} (h : decodeBlk bytes = .ok (i, rest)) :
    i.unit = .ic ∧ encode i ++ rest = bytes := by
  unfold decodeBlk at h
  split at h
  · cases h
  · dsimp only at h
    split_ifs at h
    obtain ⟨crc, rfl, hcrc⟩ := decodeCrc_ok h
    exact ⟨rfl, by simp [encode, bytesBE_wordBE, tagBytes, hcrc]⟩
  · cases h

/-! ### Fetching only groups the pending tokens -/

/-- The tokens that bring a record: the pushes of its bytes into its unit (30_encoding.md R107). -/
def recordTokens (i : Instr) : List Token :=
  match i.unit with
  | .df => dfPushes (encode i)
  | .ic => icPushes (encode i)

theorem execWith_eq_deliverAll (i : Instr) (s : State) : execWith P i s = deliverAll P (recordTokens i) s :=
  execWith_pushes i s

theorem recordTokens_length (i : Instr) : (recordTokens i).length = (encode i).length := by
  unfold recordTokens; split <;> exact List.length_map _

theorem recordTokens_length_pos (i : Instr) : 1 ≤ (recordTokens i).length := by
  rw [recordTokens_length]
  exact List.length_pos_iff.2 (encode_ne_nil i)

/-- The tokens that a fetch accounts for, those behind it included. -/
def Fetched.tokens : Fetched → List Token
  | .nothing => []
  | .token t rest => t :: rest
  | .record i rest => recordTokens i ++ rest

theorem rowRecord_tokens {width : Word} {ts : List Token} {i : Instr} {r : List Byte}
    (h : decode .df width (dfBytes ts) = .ok (i, r)) : ts = recordTokens i ++ ts.drop (encode i).length := by
  obtain ⟨hu, hb⟩ := decodeRow_ok h
  have ht := dfBytes_take (encode i).length ts (by simp [← hb])
  simpa only [recordTokens, hu, ← hb, List.take_left] using ht

theorem blockRecord_tokens {width : Word} {ts : List Token} {i : Instr} {r : List Byte}
    (h : decode .ic width (icBytes ts) = .ok (i, r)) : ts = recordTokens i ++ ts.drop (encode i).length := by
  obtain ⟨hu, hb⟩ := decodeBlk_ok h
  have ht := icBytes_take (encode i).length ts (by simp [← hb])
  simpa only [recordTokens, hu, ← hb, List.take_left] using ht

theorem recordOr_tokens {t : Token} {rest : List Token} {r : Except DecodeError (Instr × List Byte)}
    (h : ∀ i bs, r = .ok (i, bs) → t :: rest = recordTokens i ++ (t :: rest).drop (encode i).length) :
    (recordOr t rest r).tokens = t :: rest := by
  cases r with
  | error e => rfl
  | ok p => exact (h p.1 p.2 rfl).symm

theorem fetch_tokens (s : State) : (fetch s).tokens = s.host.pending := by
  unfold fetch
  split
  next h => exact h.symm
  next b rest h =>
    rw [h]
    split_ifs
    · exact recordOr_tokens fun _ _ => rowRecord_tokens
    · rfl
  next x rest h =>
    rw [h]
    split_ifs
    · exact recordOr_tokens fun _ _ => blockRecord_tokens
    · rfl
  next t rest _ _ h => exact h.symm

/-! ### A step is a number of token steps -/

theorem tokenSteps_one (s : State) : tokenSteps P 1 s = tokenStep P s := by
  show andThen (tokenStep P s) .next = tokenStep P s
  cases tokenStep P s <;> rfl

theorem stepWith_eq_tokenSteps (P : Config.Params) (s : State) : ∃ n, 1 ≤ n ∧ tokenSteps P n s = stepWith P s := by
  have hpend := fetch_tokens s
  unfold stepWith runFetched
  cases hf : fetch s with
  | nothing =>
    rw [hf] at hpend
    exact ⟨1, le_rfl, by rw [tokenSteps_one, tokenStep, ← hpend]; rfl⟩
  | token t rest =>
    rw [hf] at hpend
    exact ⟨1, le_rfl, by rw [tokenSteps_one, tokenStep, ← hpend]; rfl⟩
  | record i rest =>
    rw [hf, Fetched.tokens] at hpend
    refine ⟨(recordTokens i).length, recordTokens_length_pos i, ?_⟩
    calc tokenSteps P (recordTokens i).length s
      _ = tokenSteps P (recordTokens i).length (s.withPending (recordTokens i ++ rest)) := by
        rw [hpend, State.withPending_self]
      _ = deliverAll P (recordTokens i) (s.withPending rest) := tokenSteps_prefix _ _ _
      _ = execWith P i (s.withPending rest) := (execWith_eq_deliverAll i _).symm

/-- Settles O9: fetching groups the pending tokens, so a record's step is one token step for each of its bytes, and any
other step is one token step. -/
theorem stepIsTokenSteps : Obligations.StepIsTokenSteps := by
  refine fun s => ⟨?_, fun P => stepWith_eq_tokenSteps P s⟩
  rw [step_eq_stepWith]
  exact stepWith_eq_tokenSteps params s

/-- Only a DF push in SELECT and an IC push at the record boundary start a record. -/
theorem fetch_token {s : State} {t : Token} {rest : List Token} (h : s.host.pending = t :: rest)
    (hdf : ∀ b, t = .dfPush b → s.df.state ≠ .select) (hic : ∀ x, t = .icPush x → atBoundary s.ic = false) :
    fetch s = .token t rest := by
  unfold fetch
  rw [h]
  split
  next => contradiction
  next b _ heq => cases heq; rw [if_neg (hdf b rfl)]
  next x _ heq => cases heq; rw [hic x rfl]; rfl
  next _ _ _ _ heq => cases heq; rfl

/-- Settles O8: such a token is fetched alone, whatever the parameters. -/
theorem stepDeliversOneToken : Obligations.StepDeliversOneToken := by
  intro s t rest hp hdf hic
  have hwith : ∀ P, stepWith P s = deliver P t (s.withPending rest) := fun P => by
    rw [stepWith, runFetched, fetch_token hp hdf hic]
  exact ⟨(step_eq_stepWith s).trans (hwith params), hwith⟩

end Sys2Proof.Machine
end

section
/-! PROOFS of the family 10_state.md: the invariants of both units (R34, R49), the position (R26), the dimensions (R21, R22),
the flags (R28), the accumulator (R45), a step on a block record (R41). The shape: say once what a delivery can do to each
unit, show of each of these reactions that it keeps the unit's invariant, and read a step as token steps (O9). -/

namespace Sys2Proof.Machine

variable {P : Config.Params}

/-! ### What a delivery can do to each unit -/

/-- Everything a token can do to DF. -/
theorem deliver_df_cases {t : Token} {s u : State} (h : deliver P t s = .next u) :
    u.df = s.df ∨ (t = .dfReset ∧ u.df = dfReset s.df) ∨
    (∃ w v, t = .dfStart w v ∧ dfStart P w v s.df = .next u.df) ∨
    (∃ b, t = .dfPush b ∧ dfPush b s.df = .next u.df) ∨ (t = .dfEos ∧ u.df = dfEos s.df) := by
  have onDf_next : ∀ {o : Result Df}, onDf o s = .next u → o = .next u.df := fun ho => by
    obtain ⟨d, hd, hu⟩ := andThen_eq_next.1 ho
    cases hu
    exact hd
  cases t with
  | dfReset => cases h; exact .inr (.inl ⟨rfl, rfl⟩)
  | dfStart w v => exact .inr (.inr (.inl ⟨w, v, rfl, onDf_next h⟩))
  | dfPush b => exact .inr (.inr (.inr (.inl ⟨b, rfl, onDf_next h⟩)))
  | dfEos => cases h; exact .inr (.inr (.inr (.inr ⟨rfl, rfl⟩)))
  | dfReadStatus => cases h; exact .inl rfl
  | dfReadOut a => cases h; exact .inl (readOut_df a s)
  | icReset | icPush | icEos | icReadStatus => exact .inl (deliver_ic_frame h rfl).1

@[simp] theorem onIc_ic (r : Ic × Option Verdict) (s : State) : (onIc r s).ic = r.1 := by
  obtain ⟨c, _ | v⟩ := r <;> rfl

/-- Everything a token can do to IC. -/
theorem deliver_ic_cases {t : Token} {s u : State} (h : deliver P t s = .next u) :
    u.ic = s.ic ∨ u.ic = icReset P s.ic ∨ (∃ x, u.ic = (icPush P x s.ic).1) ∨ u.ic = icEos s.ic := by
  cases t with
  | icReset => cases h; exact .inr (.inl rfl)
  | icPush x => cases h; exact .inr (.inr (.inl ⟨x, onIc_ic _ s⟩))
  | icEos => cases h; exact .inr (.inr (.inr rfl))
  | icReadStatus => cases h; exact .inl rfl
  | dfReset | dfStart | dfPush | dfEos | dfReadStatus | dfReadOut => exact .inl (deliver_df_frame h rfl).1

/-! ### WIDTH and HEIGHT -/

theorem selectorStep_dims (b : Byte) (d : Df) :
    (selectorStep b d).width = d.width ∧ (selectorStep b d).height = d.height := by
  unfold selectorStep; split <;> exact ⟨rfl, rfl⟩

theorem storeByte_dims (r : Byte) (d : Df) : (storeByte r d).width = d.width ∧ (storeByte r d).height = d.height := by
  unfold storeByte; dsimp only; split <;> exact ⟨rfl, rfl⟩

theorem dfPush_dims {b : Byte} {d e : Df} (h : dfPush b d = .next e) : e.width = d.width ∧ e.height = d.height := by
  obtain ⟨-, rfl⟩ | ⟨-, n, p, -, -, rfl⟩ | ⟨-, rfl⟩ := dfPush_cases h
  · exact selectorStep_dims b d
  · exact storeByte_dims _ d
  · exact ⟨rfl, rfl⟩

/-- Everything `DF.EOS` can do (42_host_operations.md R194). -/
theorem dfEos_cases (d : Df) : dfEos d = d ∨ dfEos d = dfRaise .truncatedInput 0 0 d := by
  cases hs : d.state <;> simp [dfEos, hs]

theorem dfEos_dims (d : Df) : (dfEos d).width = d.width ∧ (dfEos d).height = d.height := by
  obtain h | h := dfEos_cases d <;> rw [h] <;> exact ⟨rfl, rfl⟩

/-- Settles O41: of the tokens that reach DF's registers only a push, DF.EOS and a DF.START outside IDLE are left. -/
theorem dimensionsFixedDuringRun : Obligations.DimensionsFixedDuringRun := by
  intro P s u t h hreset hstart
  obtain hu | ⟨rfl, -⟩ | ⟨w, v, rfl, hu⟩ | ⟨b, rfl, hu⟩ | ⟨rfl, hu⟩ := deliver_df_cases h
  · rw [hu]; exact ⟨rfl, rfl⟩
  · exact absurd rfl hreset
  · have hidle := hstart w v rfl
    obtain ⟨-, hu⟩ | ⟨hs, -⟩ | ⟨hs, -⟩ := dfStart_cases hu
    · rw [hu]; exact ⟨rfl, rfl⟩
    · exact absurd hs hidle
    · exact absurd hs hidle
  · exact dfPush_dims hu
  · rw [hu]; exact dfEos_dims s.df

/-- Settles O42, by STATE. -/
theorem statusFlagsExclusive : Obligations.StatusFlagsExclusive := by
  intro d
  cases hs : d.state <;> simp [dfIdle, dfBusy, dfDone, dfFault, hs]

/-! ### The invariant of DF -/

theorem emptyFrom_nil (n : Nat) : emptyFrom [] n := fun _ _ => rfl

theorem emptyFrom_write {m : Memory} {n a : Nat} {v : Byte} (h : emptyFrom m n) (ha : a < n) :
    emptyFrom (m.write a v) n := fun i hi => by
  rw [Memory.read_write_other m v (by omega)]
  exact h i hi

theorem emptyFrom_below (m : Memory) (n : Nat) : emptyFrom (m.below n) n := fun i hi => by
  rw [Memory.read_below, if_neg (by omega)]

theorem writtenBelow_write {m : Memory} {n : Nat} {v : Byte} (h : writtenBelow m n) :
    writtenBelow (m.write n v) (n + 1) := fun i hi => by
  rw [Memory.read_write]
  split
  · rfl
  · exact h i (by omega)

/-- A unit that records no error is not in FAULT (10_state.md R34 e). -/
theorem DfInv.errKind_none {d : Df} (h : DfInv d) (hs : d.state ≠ .fault) : d.errKind = .none := by
  by_contra hk
  exact hs (h.fault.2 hk)

/-- DF after a reset, whatever output was written before (10_state.md R50). -/
theorem DfInv.dfReset {d : Df} (hout : d.out.wf = true) : DfInv (dfReset d) where
  wf := ⟨rfl, rfl, hout⟩
  data := nofun
  select := nofun
  done := nofun
  dims := by simp [running, Machine.dfReset, Df.reset]
  fault := by simp [Machine.dfReset, Df.reset]
  errFields _ := ⟨rfl, rfl⟩
  errKinds := .inl rfl
  lines := ⟨emptyFrom_nil _, emptyFrom_nil _⟩
  fresh _ := ⟨rfl, rfl⟩
  priorRow := by simp [running, Machine.dfReset, Df.reset]
  curRow := nofun
  outWritten := by simp [running, Machine.dfReset, Df.reset]

/-- Entering FAULT with a kind and fields that DF records (60_exceptions.md R222, 10_state.md R29). -/
theorem DfInv.dfRaise {d : Df} {k : ErrKind} {row : Word} {value : Byte} (h : DfInv d)
    (hk : k = .truncatedInput ∨ k = .invalidDimensions ∨ k = .invalidFilterSelector)
    (hf : k ≠ .invalidFilterSelector → row = 0 ∧ value = 0) : DfInv (dfRaise k row value d) where
  wf := h.wf
  data := nofun
  select := nofun
  done := nofun
  dims := by simp [running]
  fault := by rcases hk with rfl | rfl | rfl <;> simp
  errFields := hf
  errKinds := .inr hk
  lines := h.lines
  fresh := nofun
  priorRow := by simp [running]
  curRow := nofun
  outWritten := by simp [running]

theorem DfInv.started {d : Df} {w v : Word} (h : DfInv d) (hs : d.state = .idle) (hw : w ≠ 0) (hv : v ≠ 0) :
    DfInv { d with width := w, height := v, row := 0, col := 0, state := .select } where
  wf := h.wf
  data := nofun
  select _ := ⟨rfl, by bv_omega⟩
  done := nofun
  dims _ := ⟨hw, hv⟩
  fault := by simp [h.errKind_none (by simp [hs])]
  errFields := h.errFields
  errKinds := h.errKinds
  lines := by
    obtain ⟨hprior, hcur⟩ := h.fresh hs
    simp only [hprior, hcur]
    exact ⟨emptyFrom_nil _, emptyFrom_nil _⟩
  fresh := nofun
  priorRow _ hrow := absurd rfl hrow
  curRow := nofun
  outWritten _ i hi := by simp [outAddress] at hi

/-- The selector step with a legal selector (40_defilter_rows.md R121): the position does not move. -/
theorem DfInv.rowBegun {d : Df} {b : Byte} (h : DfInv d) (hs : d.state = .select) (hb : b.toNat ≤ 4) :
    DfInv { d with sel := b, col := 0, state := .data } where
  wf := h.wf
  data _ := by
    have hS := stride_pos (h.dims (.inl hs)).1
    exact ⟨by simp only [BitVec.ofNat_eq_ofNat, BitVec.toNat_zero]; omega, (h.select hs).2, hb⟩
  select := nofun
  done := nofun
  dims _ := h.dims (.inl hs)
  fault := by simp [h.errKind_none (by simp [hs])]
  errFields := h.errFields
  errKinds := h.errKinds
  lines := h.lines
  fresh := nofun
  priorRow _ := h.priorRow (.inl hs)
  curRow _ i hi := by simp at hi
  outWritten _ := by simpa only [outAddress, (h.select hs).1] using h.outWritten (.inl hs)

theorem DfInv.selectorStep {d : Df} {b : Byte} (h : DfInv d) (hs : d.state = .select) : DfInv (selectorStep b d) := by
  unfold Machine.selectorStep
  split
  next hb => exact h.rowBegun hs (by simpa [selLegal] using hb)
  next => exact h.dfRaise (.inr (.inr rfl)) (absurd rfl)

/-- The output a data step writes is the current row's next byte: with it CUR holds the row one byte further (R31, R128). -/
theorem DfInv.curRow_write {d : Df} (h : DfInv d) (hs : d.state = .data) (r : Byte) (i : Nat) (hi : i < d.col.toNat + 1) :
    (d.cur.write d.col.toNat r).read i =
      (d.out.write (outAddress d) r).read (d.row.toNat * Config.stride d.width + i) := by
  obtain rfl | hlt : i = d.col.toNat ∨ i < d.col.toNat := by omega
  · simp [outAddress]
  · rw [Memory.read_write_other _ _ (by omega), Memory.read_write_other _ _ (by simp only [outAddress]; omega)]
    exact h.curRow hs i hlt

/-- The output of the previous row lies below the address a data step writes (R30, R128). -/
theorem DfInv.priorRow_write {d : Df} (h : DfInv d) (hs : d.state = .data) (r : Byte) (hrow : d.row ≠ 0) (i : Nat)
    (hi : i < Config.stride d.width) :
    d.prior.read i = (d.out.write (outAddress d) r).read ((d.row.toNat - 1) * Config.stride d.width + i) := by
  have hpos : 1 ≤ d.row.toNat := by bv_omega
  have hprev : (d.row.toNat - 1) * Config.stride d.width + Config.stride d.width =
      d.row.toNat * Config.stride d.width := by
    rw [← Nat.succ_mul, Nat.succ_eq_add_one, Nat.sub_add_cancel hpos]
  rw [Memory.read_write_other _ _ (by simp only [outAddress]; omega)]
  exact h.priorRow (.inr (.inl hs)) hrow i hi

/-- A data step inside the row. -/
theorem DfInv.storeByte_mid {d : Df} {r : Byte} (h : DfInv d) (hs : d.state = .data)
    (hmid : d.col.toNat + 1 < Config.stride d.width) : DfInv (storeByte r d) := by
  obtain ⟨hcol, hrow, hsel⟩ := h.data hs
  obtain ⟨hprior, hcur, hout⟩ := h.wf
  have hcol1 : (d.col + 1).toNat = d.col.toNat + 1 := col_succ_toNat (by omega)
  rw [Machine.storeByte_mid hmid]
  exact {
    wf := ⟨hprior, Memory.wf_write _ _ hcur, Memory.wf_write _ _ hout⟩
    data := fun _ => ⟨by simpa only [hcol1] using hmid, hrow, hsel⟩
    select := by simp [hs]
    done := by simp [hs]
    dims := h.dims
    fault := h.fault
    errFields := h.errFields
    errKinds := h.errKinds
    lines := ⟨h.lines.1, emptyFrom_write h.lines.2 hcol⟩
    fresh := by simp [hs]
    priorRow := fun _ => h.priorRow_write hs r
    curRow := fun _ => by simpa only [hcol1] using h.curRow_write hs r
    outWritten := fun hr => by
      simpa only [outAddress, hcol1, Nat.add_assoc] using writtenBelow_write (v := r) (h.outWritten hr) }

/-- The data step at the end of the row: the row in CUR, now complete, becomes PRIOR (R129). -/
theorem DfInv.storeByte_last {d : Df} {r : Byte} (h : DfInv d) (hs : d.state = .data)
    (hlast : ¬ d.col.toNat + 1 < Config.stride d.width) : DfInv (storeByte r d) := by
  obtain ⟨hcol, hrow, -⟩ := h.data hs
  obtain ⟨-, hcur, hout⟩ := h.wf
  have hrow1 : (d.row + 1).toNat = d.row.toNat + 1 := row_succ_toNat hrow
  have hend : Config.stride d.width = d.col.toNat + 1 := by omega
  rw [Machine.storeByte_last hlast]
  exact {
    wf := ⟨Memory.wf_below _ (Memory.wf_write _ _ hcur), Memory.wf_write _ _ hcur, Memory.wf_write _ _ hout⟩
    data := by dsimp only; split <;> nofun
    select := fun hnext => ⟨rfl, by
      dsimp only at hnext ⊢
      split at hnext
      · omega
      · cases hnext⟩
    done := fun hdone => ⟨by
      dsimp only at hdone ⊢
      split at hdone
      · cases hdone
      · exact BitVec.eq_of_toNat_eq (by omega), rfl⟩
    dims := fun _ => h.dims (.inr (.inl hs))
    fault := by
      have := h.errKind_none (by simp [hs])
      dsimp only; split <;> simp [this]
    errFields := h.errFields
    errKinds := h.errKinds
    lines := ⟨emptyFrom_below _ _, emptyFrom_write h.lines.2 hcol⟩
    fresh := by dsimp only; split <;> nofun
    priorRow := fun _ _ i hi => by
      simp only [hrow1, Nat.add_sub_cancel, Memory.read_below, if_pos hi]
      exact h.curRow_write hs r i (hend ▸ hi)
    curRow := by dsimp only; split <;> nofun
    outWritten := fun _ => by
      have haddr : (d.row + 1).toNat * Config.stride d.width + 0 = outAddress d + 1 := by
        rw [hrow1, Nat.succ_mul, outAddress]; omega
      show writtenBelow _ ((d.row + 1).toNat * Config.stride d.width + 0)
      rw [haddr]
      exact writtenBelow_write (h.outWritten (.inr (.inl hs))) }

theorem DfInv.storeByte {d : Df} {r : Byte} (h : DfInv d) (hs : d.state = .data) : DfInv (storeByte r d) := by
  by_cases hmid : d.col.toNat + 1 < Config.stride d.width
  · exact h.storeByte_mid hs hmid
  · exact h.storeByte_last hs hmid

theorem DfInv.dfStart {w v : Word} {d e : Df} (h : DfInv d) (hd : dfStart P w v d = .next e) : DfInv e := by
  obtain ⟨-, rfl⟩ | ⟨-, -, rfl⟩ | ⟨hs, hw, hv, rfl⟩ := dfStart_cases hd
  · exact h
  · exact h.dfRaise (.inr (.inl rfl)) fun _ => ⟨rfl, rfl⟩
  · exact h.started hs hw hv

theorem DfInv.dfPush {b : Byte} {d e : Df} (h : DfInv d) (hd : dfPush b d = .next e) : DfInv e := by
  obtain ⟨hs, rfl⟩ | ⟨hs, n, p, -, -, rfl⟩ | ⟨-, rfl⟩ := dfPush_cases hd
  · exact h.selectorStep hs
  · exact h.storeByte hs
  · exact h

theorem DfInv.dfEos {d : Df} (h : DfInv d) : DfInv (dfEos d) := by
  obtain hd | hd := dfEos_cases d <;> rw [hd]
  · exact h
  · exact h.dfRaise (.inl rfl) fun _ => ⟨rfl, rfl⟩

theorem DfInv.deliver {t : Token} {s u : State} (h : DfInv s.df) (hd : deliver P t s = .next u) : DfInv u.df := by
  obtain hu | ⟨-, hu⟩ | ⟨w, v, -, hu⟩ | ⟨b, -, hu⟩ | ⟨-, hu⟩ := deliver_df_cases hd
  · exact hu ▸ h
  · exact hu ▸ DfInv.dfReset h.wf.2.2
  · exact h.dfStart hu
  · exact h.dfPush hu
  · exact hu ▸ h.dfEos

/-! ### The invariant of IC -/

theorem IcInv.resetWith (P : Config.Params) : IcInv (Ic.resetWith P) where
  payload := nofun
  payloadCnt := nofun
  fault := by simp [Ic.resetWith]
  errField _ := rfl
  errKinds := .inl rfl

theorem IcInv.icRaise {c : Ic} {k : ErrKind} {tag : Tag} (hk : k = .truncatedInput ∨ k = .checksumMismatch)
    (htag : k ≠ .checksumMismatch → tag = zeroTag) : IcInv (icRaise k tag c) where
  payload := nofun
  payloadCnt := nofun
  fault := by rcases hk with rfl | rfl <;> simp
  errField := htag
  errKinds := .inr hk

/-- A step between phases other than FAULT keeps the error record, so only what phase PAYLOAD asks is to be shown. -/
theorem IcInv.advance {c e : Ic} (h : IcInv c) (hc : c.phase ≠ .fault) (hkind : e.errKind = c.errKind)
    (htag : e.errTag = c.errTag) (he : e.phase ≠ .fault)
    (hpay : e.phase = .payload → (1 ≤ e.rem.toNat ∧ e.rem.toNat ≤ e.len.toNat) ∧ e.cnt = 0) : IcInv e where
  payload hp := (hpay hp).1
  payloadCnt hp := (hpay hp).2
  fault := by
    have hnone : ¬ c.errKind ≠ .none := fun hk => hc (h.fault.2 hk)
    exact ⟨fun hp => absurd hp he, fun hk => absurd (hkind ▸ hk) hnone⟩
  errField := by rw [hkind, htag]; exact h.errField
  errKinds := by rw [hkind]; exact h.errKinds

theorem IcInv.lenStep {c : Ic} (h : IcInv c) (hp : c.phase = .len) (x : Byte) : IcInv (lenStep P x c) := by
  unfold Machine.lenStep; dsimp only
  split <;> exact h.advance (by simp [hp]) rfl rfl (by simp [hp]) (by simp [hp])

/-- At the end of the tag REM takes the length, and phase PAYLOAD is entered only where that is not 0 (R166). -/
theorem IcInv.tagStep {c : Ic} (h : IcInv c) (hp : c.phase = .tag) (x : Byte) : IcInv (tagStep P x c) := by
  unfold Machine.tagStep; dsimp only
  split
  · exact h.advance (by simp [hp]) rfl rfl (by simp [hp]) (by simp [hp])
  · refine h.advance (by simp [hp]) rfl rfl (by dsimp only; split <;> nofun) fun hpay => ⟨?_, rfl⟩
    dsimp only at hpay ⊢
    split at hpay
    · omega
    · cases hpay

/-- REM is at least 1 in phase PAYLOAD and the phase ends at 1, so the decrement never wraps (R167). -/
theorem IcInv.payloadStep {c : Ic} (h : IcInv c) (hp : c.phase = .payload) (x : Byte) : IcInv (payloadStep P x c) := by
  obtain ⟨hrem, hlen⟩ := h.payload hp
  refine h.advance (by simp [hp]) rfl rfl (by simp only [Machine.payloadStep]; split <;> nofun)
    fun hpay => ⟨?_, h.payloadCnt hp⟩
  simp only [Machine.payloadStep] at hpay ⊢
  split at hpay
  · cases hpay
  · bv_omega

theorem IcInv.crcStep {c : Ic} (h : IcInv c) (hp : c.phase = .crc) (x : Byte) : IcInv (crcStep P x c).1 := by
  unfold Machine.crcStep; dsimp only
  split
  · exact h.advance (by simp [hp]) rfl rfl (by simp [hp]) (by simp [hp])
  · split
    · exact h.advance (by simp [hp]) rfl rfl nofun nofun
    · exact IcInv.icRaise (.inr rfl) (absurd rfl)

theorem IcInv.icPush {c : Ic} (h : IcInv c) (x : Byte) : IcInv (icPush P x c).1 := by
  unfold Machine.icPush
  split
  next hp => exact h.lenStep hp x
  next hp => exact h.tagStep hp x
  next hp => exact h.payloadStep hp x
  next hp => exact h.crcStep hp x
  next => exact h

theorem IcInv.icEos {c : Ic} (h : IcInv c) : IcInv (icEos c) := by
  unfold Machine.icEos
  split
  · exact IcInv.icRaise (.inl rfl) fun _ => rfl
  · exact h

theorem IcInv.deliver {t : Token} {s u : State} (h : IcInv s.ic) (hd : deliver P t s = .next u) : IcInv u.ic := by
  obtain hu | hu | ⟨x, hu⟩ | hu := deliver_ic_cases hd <;> rw [hu]
  · exact h
  · exact IcInv.resetWith P
  · exact h.icPush x
  · exact h.icEos

/-! ### Both invariants: at reset, over a token, over a step -/

/-- Settles O12: DF after reset is a reset of itself, and IC's reset meets its invariant for every CHECKSUM. -/
theorem resetMeetsInvariants : Obligations.ResetMeetsInvariants := by
  have hreset : ∀ P, MachineInv (State.resetWith P) := fun P =>
    ⟨DfInv.dfReset (d := Df.reset) rfl, IcInv.resetWith P⟩
  exact ⟨hreset params, hreset⟩

/-- Settles O39, unit by unit. -/
theorem tokenKeepsInvariants : Obligations.TokenKeepsInvariants :=
  fun _ _ _ _ h hd => ⟨h.1.deliver hd, h.2.deliver hd⟩

/-- The invariants do not speak of the tokens still to deliver, so a token step keeps them as its delivery does. -/
theorem MachineInv.tokenStep {s u : State} (h : MachineInv s) (hd : tokenStep P s = .next u) : MachineInv u := by
  unfold Machine.tokenStep at hd
  split at hd
  next => cases hd
  next t rest _ => exact tokenKeepsInvariants P (s.withPending rest) u t h hd

theorem MachineInv.tokenSteps {n : Nat} {s u : State} (h : MachineInv s) (hd : tokenSteps P n s = .next u) :
    MachineInv u := by
  induction n generalizing s with
  | zero => cases hd; exact h
  | succ n ih =>
    obtain ⟨v, hv, hu⟩ := andThen_eq_next.1 hd
    exact ih (h.tokenStep hv) hu

theorem MachineInv.stepWith {s u : State} (h : MachineInv s) (hd : stepWith P s = .next u) : MachineInv u := by
  obtain ⟨n, -, hn⟩ := stepWith_eq_tokenSteps P s
  exact h.tokenSteps (hn.trans hd)

/-- Settles O38: a step is a number of token steps (O9), each of which keeps the invariants (O39). -/
theorem stepKeepsInvariants : Obligations.StepKeepsInvariants :=
  fun s _ h => ⟨fun hd => h.stepWith ((step_eq_stepWith s).symm.trans hd), fun _ hd => h.stepWith hd⟩

/-! ### The position -/

/-- In a run DF is DONE exactly at the end of the program (10_state.md R26, R34): before it the row in progress, of
`1 + S` bytes, is not complete. -/
theorem DfInv.done_iff_consumed {d : Df} (h : DfInv d) (hr : running d) :
    d.state = .done ↔ consumed d = programLength d := by
  have hlt : d.row.toNat < d.height.toNat →
      d.row.toNat * (1 + Config.stride d.width) + (1 + Config.stride d.width) ≤ programLength d := fun hrow => by
    rw [← Nat.succ_mul]
    exact Nat.mul_le_mul_right _ hrow
  obtain hs | hs | hs := hr
  · have := hlt (h.select hs).2
    simp only [consumed, hs, reduceCtorEq, if_false, false_iff]
    omega
  · obtain ⟨hcol, hrow, -⟩ := h.data hs
    have := hlt hrow
    simp only [consumed, hs, if_true, reduceCtorEq, false_iff]
    omega
  · simp [consumed, programLength, hs, (h.done hs).1]

theorem consumed_selectorStep {b : Byte} {d : Df} (hs : d.state = .select) (hf : (selectorStep b d).state ≠ .fault) :
    running (selectorStep b d) ∧ consumed (selectorStep b d) = consumed d + 1 := by
  by_cases hb : selLegal b = true
  · rw [selectorStep, if_pos hb]
    exact ⟨.inr (.inl rfl), by simp [consumed, hs]⟩
  · rw [selectorStep, if_neg hb] at hf
    exact absurd rfl hf

theorem consumed_storeByte {r : Byte} {d : Df} (h : DfInv d) (hs : d.state = .data) :
    running (storeByte r d) ∧ consumed (storeByte r d) = consumed d + 1 := by
  obtain ⟨hcol, hrow, -⟩ := h.data hs
  by_cases hmid : d.col.toNat + 1 < Config.stride d.width
  · rw [storeByte_mid hmid]
    refine ⟨.inr (.inl hs), ?_⟩
    simp only [consumed, hs, if_true, col_succ_toNat hmid.le]
    omega
  · rw [storeByte_last hmid]
    refine ⟨by dsimp only [running]; split <;> simp, ?_⟩
    have hnext : (if d.row.toNat + 1 < d.height.toNat then DfPhase.select else .done) ≠ .data := by split <;> nofun
    simp only [consumed, hs, if_true, if_neg hnext, row_succ_toNat hrow, Nat.succ_mul]
    omega

/-- Settles O35: the selector step and the data step each take one byte, and the invariant after it tells DONE. -/
theorem pushAdvancesByOne : Obligations.PushAdvancesByOne := by
  intro d e b h hstate hd hf
  have he : DfInv e := h.dfPush hd
  have key : running e ∧ consumed e = consumed d + 1 := by
    obtain ⟨hs, rfl⟩ | ⟨hs, n, p, -, -, rfl⟩ | ⟨hs, -⟩ := dfPush_cases hd
    · exact consumed_selectorStep hs hf
    · exact consumed_storeByte h hs
    · rcases hstate with h' | h' <;> simp [h'] at hs
  obtain ⟨hw, hh⟩ := dfPush_dims hd
  refine ⟨key.2, ?_⟩
  rw [he.done_iff_consumed key.1, programLength, programLength, hw, hh]

/-! ### Block records -/

theorem absorb_append (C : Config.Checksum) (acc : Word) (xs ys : List Byte) :
    absorb C acc (xs ++ ys) = absorb C (absorb C acc xs) ys := List.foldl_append

/-- From the start of the payload, any part of it: phase CRC is entered exactly where REM is 0 (R167). -/
theorem icPushAll_payload_any (part : List Byte) (c : Ic) (hp : c.phase = if 0 < c.rem.toNat then .payload else .crc)
    (hl : part.length ≤ c.rem.toNat) :
    icPushAll P part c =
      ({ c with
        acc := absorb P.checksum c.acc part, rem := c.rem - BitVec.ofNat 32 part.length,
        phase := if part.length < c.rem.toNat then .payload else .crc }, []) := by
  obtain hlt | heq := Nat.lt_or_eq_of_le hl
  · have hp' : c.phase = .payload := by rw [hp, if_pos (by omega)]
    rw [icPushAll_payload_part P part c hp' hlt, if_pos hlt, ← hp']
  · have hrem : c.rem - BitVec.ofNat 32 part.length = 0 := by simp [heq]
    rw [if_neg (by omega), hrem]
    by_cases h0 : 0 < part.length
    · exact icPushAll_payload P part c (by rw [hp, if_pos (by omega)]) heq h0
    · obtain rfl : part = [] := List.eq_nil_of_length_eq_zero (by omega)
      have hp' : c.phase = .crc := by rw [hp, if_neg (by omega)]
      have hr0 : c.rem = 0 := by simpa using hrem
      simp only [icPushAll, absorb, List.foldl_nil, ← hp', ← hr0]

/-- Settles O51: phase LEN, phase TAG, then the part of the payload, one law each. -/
theorem accumulatorAbsorbsTagAndPayload : Obligations.AccumulatorAbsorbsTagAndPayload := by
  intro P length tag part c hp hc hl
  have hlen : icPushAll P (bytesBE length) c =
      ({ c with len := length, cnt := 0, acc := P.checksum.init, phase := .tag }, []) := by
    rw [bytesBE, icPushAll_length P _ _ _ _ c hp hc, wordBE_bytes]
  have hsub : (length - BitVec.ofNat 32 part.length).toNat = length.toNat - part.length := by bv_omega
  rw [icPushAll_append, icPushAll_append, hlen, icPushAll_tag P tag _ rfl rfl, icPushAll_payload_any part _ rfl hl]
  exact ⟨_, rfl, (absorb_append _ _ _ _).symm, rfl, rfl, hsub, rfl, rfl⟩

/-- The decoder reads a well-formed block record back and leaves what is behind it (30_encoding.md R96 to R99). -/
theorem decodeBlk_encode_chkblk {length : Word} {payload : List Byte} (hl : payload.length = length.toNat) (tag : Tag)
    (crc : Word) (rest : List Byte) :
    decodeBlk (encode (.chkblk length tag payload crc) ++ rest) = .ok (.chkblk length tag payload crc, rest) := by
  have hcrc : decodeCrc length tag payload (bytesBE crc ++ rest) = .ok (.chkblk length tag payload crc, rest) := by
    rw [bytesBE]
    simp only [List.cons_append, List.nil_append, decodeCrc, wordBE_bytes]
  have hbytes : encode (.chkblk length tag payload crc) ++ rest =
      bytesBE length ++ tagBytes tag ++ (payload ++ (bytesBE crc ++ rest)) := by simp [encode]
  rw [hbytes, bytesBE, tagBytes]
  simp only [List.cons_append, List.nil_append, decodeBlk, wordBE_bytes]
  rw [if_neg (by simp [hl]), ← hl, List.take_left, List.drop_left, hcrc]

theorem decode_ic_encode {i : Instr} {width : Word} (hu : i.unit = .ic) (hwf : i.wellFormed width = true)
    (rest : List Byte) : decode .ic width (encode i ++ rest) = .ok (i, rest) := by
  cases i with
  | chkblk length tag payload crc => exact decodeBlk_encode_chkblk (by simpa [Instr.wellFormed] using hwf) tag crc rest
  | _ => cases hu

theorem fetch_icPush {s : State} {x : Byte} {ts : List Token} (hp : s.host.pending = .icPush x :: ts)
    (hb : atBoundary s.ic = true) :
    fetch s = recordOr (.icPush x) ts (decode .ic s.df.width (icBytes (.icPush x :: ts))) := by
  simp only [fetch, hp, hb, if_true]

theorem fetch_blockRecord {s : State} {i : Instr} {rest : List Token} (hb : atBoundary s.ic = true) (hu : i.unit = .ic)
    (hwf : i.wellFormed s.df.width = true) (hp : s.host.pending = icPushes (encode i) ++ rest) :
    fetch s = .record i rest := by
  obtain ⟨x, xs, hx⟩ := List.exists_cons_of_ne_nil (encode_ne_nil i)
  have hcons : Token.icPush x :: (icPushes xs ++ rest) = icPushes (encode i) ++ rest := by rw [hx]; rfl
  have hlen : (icPushes (encode i)).length = (encode i).length := List.length_map _
  rw [fetch_icPush (hp.trans hcons.symm) hb, hcons, icBytes_append, decode_ic_encode hu hwf]
  rw [recordOr, hcons, ← hlen, List.drop_left]

/-- Settles O7: at the record boundary the whole record is fetched, whatever the parameters. -/
theorem stepRunsBlockRecord : Obligations.StepRunsBlockRecord := by
  intro s i rest hphase hcnt hu hwf hp
  have hb : atBoundary s.ic = true := by simp [atBoundary, hphase, hcnt]
  have hwith : ∀ P, stepWith P s = execWith P i (s.withPending rest) := fun P => by
    rw [stepWith, runFetched, fetch_blockRecord hb hu hwf hp]
  refine ⟨?_, hwith⟩
  rw [step_eq_stepWith, hwith, exec_eq_execWith]

end Sys2Proof.Machine
end

section
/-! PROOFS of the family 20_memory.md: the output a data step writes (R70). Of storing a byte two facts are said once: what
it does to the output, and where it leaves the output address (R128, R129). -/

namespace Sys2Proof.Machine

/-- Inside the row and at its end alike, the output takes the byte at the current address (R128). -/
theorem storeByte_out (r : Byte) (d : Df) : (storeByte r d).out = d.out.write (outAddress d) r := by
  by_cases hmid : d.col.toNat + 1 < Config.stride d.width
  · rw [storeByte_mid hmid]
  · rw [storeByte_last hmid]

/-- Inside the row the column moves on; the row's last byte is at column `S - 1`, and the next row begins right behind it
(R128, R129). Neither register wraps. -/
theorem outAddress_storeByte {r : Byte} {d : Df} (h : DfInv d) (hs : d.state = .data) :
    outAddress (storeByte r d) = outAddress d + 1 := by
  obtain ⟨hcol, hrow, -⟩ := h.data hs
  by_cases hmid : d.col.toNat + 1 < Config.stride d.width
  · rw [storeByte_mid hmid]
    simp only [outAddress, col_succ_toNat hmid.le]
    omega
  · have hend : Config.stride d.width = d.col.toNat + 1 := by omega
    rw [storeByte_last hmid]
    calc (d.row + 1).toNat * Config.stride d.width + 0
        = d.row.toNat * Config.stride d.width + Config.stride d.width := by rw [Nat.add_zero, row_succ_toNat hrow, Nat.succ_mul]
      _ = outAddress d + 1 := by rw [outAddress, Nat.add_assoc, ← hend]

/-- Settles O37: in DATA a push that answers stores one byte. -/
theorem outputAddressesRise : Obligations.OutputAddressesRise := by
  intro d e f h hs hd
  obtain ⟨hsel, -⟩ | ⟨-, n, p, -, -, rfl⟩ | ⟨hrest, -⟩ := dfPush_cases hd
  · cases hs.symm.trans hsel
  · rw [storeByte_out]
    exact ⟨outAddress_storeByte h hs, by simp, fun a ha => Memory.read_write_other _ _ ha⟩
  · simp [hs] at hrest

end Sys2Proof.Machine
end

section
/-! PROOFS of the family 30_encoding.md: decoder and encoder are inverse to each other (R91 to R99, R104, R105), the opcode
map (R104), the pseudo-instruction chkblk.ok (R108). The one idea for rows: a row record is a selector byte and as many
operand bytes as that selector takes, so one equation of the decoder serves legal and illegal selectors alike. -/

namespace Sys2Proof.Machine

variable {P : Config.Params}

/-! ### The opcode map -/

theorem rowTable_unique_row : ∀ sel : Byte, (rowTable.filter (rowMatches sel)).length = 1 := by decide

theorem selLegal_iff_first_rows : ∀ sel : Byte, selLegal sel = (rowTable.take 5).any (rowMatches sel) := by decide

theorem selLegal_iff (sel : Byte) : selLegal sel = true ↔ sel = 0 ∨ sel = 1 ∨ sel = 2 ∨ sel = 3 ∨ sel = 4 := by
  refine ⟨selLegal_cases, ?_⟩
  rintro (rfl | rfl | rfl | rfl | rfl) <;> rfl

/-- Settles O3: the map's rows over the 256 bytes, and the legal selectors by their values. -/
theorem selectorRowsPartition : Obligations.SelectorRowsPartition := fun sel =>
  ⟨rowTable_unique_row sel, selLegal_iff sel, by rw [selLegal_iff_first_rows]⟩

/-! ### Row records -/

/-- How many operand bytes a selector takes: `S` where it is legal (30_encoding.md R94), else none (40_defilter_rows.md
R135). -/
def rowOperands (width : Word) (sel : Byte) : Nat := if selLegal sel then Config.stride width else 0

/-- The row decoder, legal and illegal selectors in one. -/
theorem decodeRow_cons (width : Word) (sel : Byte) (bs : List Byte) :
    decodeRow width (sel :: bs) =
      if bs.length < rowOperands width sel then .error .truncatedRow
      else .ok (rowInstr sel (bs.take (rowOperands width sel)), bs.drop (rowOperands width sel)) := by
  cases h : selLegal sel <;> simp [decodeRow, rowOperands, h]

theorem decodeRow_append {width : Word} {sel : Byte} {f : List Byte} (hf : f.length = rowOperands width sel)
    (rest : List Byte) : decodeRow width (sel :: f ++ rest) = .ok (rowInstr sel f, rest) := by
  rw [List.cons_append, decodeRow_cons, ← hf, if_neg (by simp), List.take_left, List.drop_left]

/-- A selector and the operand bytes it takes make a well-formed record. -/
theorem wellFormed_rowInstr {width : Word} {sel : Byte} {f : List Byte} (hf : f.length = rowOperands width sel) :
    (rowInstr sel f).wellFormed width = true := by
  cases h : selLegal sel with
  | true =>
    have hS : (f.length == Config.stride width) = true := by simpa [rowOperands, h] using hf
    rcases selLegal_cases h with rfl | rfl | rfl | rfl | rfl <;> exact hS
  | false =>
    rw [selLegal_iff_first_rows] at h
    simp only [rowTable, List.take_succ_cons, List.take_zero, List.any_cons, List.any_nil, Bool.or_false,
      Bool.or_eq_false_iff] at h
    obtain ⟨h0, h1, h2, h3, h4⟩ := h
    simp only [rowInstr, h0, h1, h2, h3, h4, Bool.false_eq_true, if_false, apply_ite (Instr.wellFormed width)]
    simp only [Instr.wellFormed, ite_self]

/-- An illegal selector alone is the whole record of the row it names (40_defilter_rows.md R135). -/
abbrev IllegalRecord (sel : Byte) (i : Instr) : Prop := selLegal sel = false ∧ encode i = [sel] ∧ rowInstr sel [] = i

/-- A record is what its selector byte names, with the operand bytes that selector takes. -/
abbrev RowRecord (width : Word) (i : Instr) : Prop :=
  ∃ sel f, f.length = rowOperands width sel ∧ encode i = sel :: f ∧ rowInstr sel f = i

theorem IllegalRecord.rowRecord {sel : Byte} {i : Instr} (h : IllegalRecord sel i) (width : Word) : RowRecord width i := by
  obtain ⟨hsel, henc, hname⟩ := h
  exact ⟨sel, [], by simp [rowOperands, hsel], henc, hname⟩

/-- Each row of the map, with its free low bits at every value (30_encoding.md R104). -/
theorem rowRecord_of_wellFormed {width : Word} {i : Instr} (hu : i.unit = .df) (hwf : i.wellFormed width = true) :
    RowRecord width i := by
  cases i with
  | rowNone f => exact ⟨0, f, beq_iff_eq.1 hwf, rfl, rfl⟩
  | rowSub f => exact ⟨1, f, beq_iff_eq.1 hwf, rfl, rfl⟩
  | rowUp f => exact ⟨2, f, beq_iff_eq.1 hwf, rfl, rfl⟩
  | rowAvg f => exact ⟨3, f, beq_iff_eq.1 hwf, rfl, rfl⟩
  | rowPaeth f => exact ⟨4, f, beq_iff_eq.1 hwf, rfl, rfl⟩
  | rowIllegal05 => exact IllegalRecord.rowRecord (sel := 5) (by decide) width
  | rowIllegal0607 low =>
    have h : ∀ low, IllegalRecord (0b0000011#7 ++ low) (.rowIllegal0607 low) := by decide
    exact (h low).rowRecord width
  | rowIllegal080F low =>
    have h : ∀ low, IllegalRecord (0b00001#5 ++ low) (.rowIllegal080F low) := by decide
    exact (h low).rowRecord width
  | rowIllegal101F low =>
    have h : ∀ low, IllegalRecord (0b0001#4 ++ low) (.rowIllegal101F low) := by decide
    exact (h low).rowRecord width
  | rowIllegal203F low =>
    have h : ∀ low, IllegalRecord (0b001#3 ++ low) (.rowIllegal203F low) := by decide
    exact (h low).rowRecord width
  | rowIllegal407F low =>
    have h : ∀ low, IllegalRecord (0b01#2 ++ low) (.rowIllegal407F low) := by decide
    exact (h low).rowRecord width
  | rowIllegal80FF low =>
    have h : ∀ low, IllegalRecord (0b1#1 ++ low) (.rowIllegal80FF low) := by decide
    exact (h low).rowRecord width
  | chkblk length tag payload crc => cases hu

theorem decode_df_encode {i : Instr} {width : Word} (hu : i.unit = .df) (hwf : i.wellFormed width = true)
    (rest : List Byte) : decode .df width (encode i ++ rest) = .ok (i, rest) := by
  obtain ⟨sel, f, hf, henc, rfl⟩ := rowRecord_of_wellFormed hu hwf
  rw [henc]
  exact decodeRow_append hf rest

theorem decodeRow_wellFormed {width : Word} {bytes rest : List Byte} {i : Instr}
    (h : decodeRow width bytes = .ok (i, rest)) : i.wellFormed width = true := by
  cases bytes with
  | nil => cases h
  | cons sel bs =>
    rw [decodeRow_cons] at h
    split_ifs at h with hlen
    cases h
    exact wellFormed_rowInstr (by simpa using hlen)

/-! ### Block records -/

/-- The payload a block decodes to is the declared number of bytes. -/
theorem decodeBlk_wellFormed {bytes rest : List Byte} {i : Instr} (h : decodeBlk bytes = .ok (i, rest)) (width : Word) :
    i.wellFormed width = true := by
  unfold decodeBlk at h
  split at h
  · cases h
  · dsimp only at h
    split_ifs at h with hlen
    obtain ⟨crc, rfl, -⟩ := decodeCrc_ok h
    simpa [Instr.wellFormed] using hlen
  · cases h

theorem decodeCrc_isOk (length : Word) (tag : Tag) (payload bytes : List Byte) :
    (∃ r, decodeCrc length tag payload bytes = .ok r) ↔ 4 ≤ bytes.length := by
  match bytes with
  | c0 :: c1 :: c2 :: c3 :: rest => simp [decodeCrc]
  | [] | [_] | [_, _] | [_, _, _] => simp [decodeCrc]

/-- Behind the length field a block decodes exactly when tag, payload and stored checksum are there. -/
theorem decodeBlk_isOk (l0 l1 l2 l3 : Byte) (bytes : List Byte) :
    (∃ r, decodeBlk (l0 :: l1 :: l2 :: l3 :: bytes) = .ok r) ↔ (wordBE l0 l1 l2 l3).toNat + 8 ≤ bytes.length := by
  match bytes with
  | t0 :: t1 :: t2 :: t3 :: rest =>
    simp only [decodeBlk, List.length_cons]
    split_ifs with hlen
    · simp only [exists_false, false_iff]
      omega
    · rw [decodeCrc_isOk, List.length_drop]
      omega
  | [] | [_] | [_, _] | [_, _, _] => simp [decodeBlk]

/-! ### Both streams -/

/-- Settles O1: a row record by its selector (RowRecord), a block record field by field. -/
theorem decodeOfEncode : Obligations.DecodeOfEncode := by
  intro width i rest hwf
  cases hu : i.unit with
  | df => exact decode_df_encode hu hwf rest
  | ic => exact decode_ic_encode hu hwf rest

/-- Settles O2: in each stream the decoder cuts the bytes where the encoder joins them, and at the length the record asks
for. -/
theorem encodeOfDecode : Obligations.EncodeOfDecode := by
  intro u width bytes rest i h
  cases u with
  | df =>
    obtain ⟨hu, hbytes⟩ := decodeRow_ok h
    exact ⟨hu, decodeRow_wellFormed h, hbytes⟩
  | ic =>
    obtain ⟨hu, hbytes⟩ := decodeBlk_ok h
    exact ⟨hu, decodeBlk_wellFormed h width, hbytes⟩

/-- Settles O4: the row decoder refuses only where operand bytes are missing, the block decoder where the tag, the payload
or the stored checksum is not all there. -/
theorem decodeNeedsOnlyLength : Obligations.DecodeNeedsOnlyLength := by
  refine ⟨fun width sel rest => ?_, fun width l0 l1 l2 l3 rest => ?_⟩
  · have hops : rowOperands width sel ≤ rest.length ↔ (sel.toNat ≤ 4 → Config.stride width ≤ rest.length) := by
      by_cases h : sel.toNat ≤ 4 <;> simp [rowOperands, selLegal, h]
    rw [← hops, decode, decodeRow_cons]
    split_ifs with hlen <;> simpa using hlen
  · rw [decode, decodeBlk_isOk, wordBE_toNat]

/-- Settles O5: each word is the encoding of the record it decodes to (O1). -/
theorem writtenWordsDecode : Obligations.WrittenWordsDecode :=
  ⟨decodeOfEncode 1 (.rowNone [10, 20, 30]) [] rfl,
    decodeOfEncode 2 (.rowSub [5, 0, 0, 3, 0, 0]) [0x02] rfl,
    decodeOfEncode 1 (.rowIllegal080F 1) [0, 0, 0] rfl,
    decodeOfEncode 0 (.chkblk 3 ⟨0x74, 0x65, 0x53, 0x74⟩ [10, 20, 30] 0x9FAA589F) [] rfl⟩

/-! ### The pseudo-instruction chkblk.ok -/

/-- From the record boundary, a block record up to its stored checksum (41_integrity_check.md R165 to R167). -/
theorem icPushAll_beforeCrc {length : Word} {tag : Tag} {payload : List Byte} {c : Ic} (hp : c.phase = .len)
    (hc : c.cnt = 0) (hl : payload.length = length.toNat) :
    icPushAll P (bytesBE length ++ tagBytes tag ++ payload) c =
      ({ c with
        phase := .crc, cnt := 0, len := length, rem := 0, tag := tag, stored := 0,
        acc := absorb P.checksum P.checksum.init (tagBytes tag ++ payload) }, []) := by
  have hlen : icPushAll P (bytesBE length) c =
      ({ c with len := length, cnt := 0, acc := P.checksum.init, phase := .tag }, []) := by
    rw [bytesBE, icPushAll_length P _ _ _ _ c hp hc, wordBE_bytes]
  have hrem : length - BitVec.ofNat 32 length.toNat = 0 := by simp
  rw [icPushAll_append, icPushAll_append, hlen, icPushAll_tag P tag _ rfl rfl, icPushAll_payload_any payload _ rfl hl.le]
  simp only [hrem, hl, lt_irrefl, if_false, absorb_append, List.append_nil]

/-- A block record whose stored checksum is right ends at the boundary with its verdict (41_integrity_check.md R168,
R170). -/
theorem icPushAll_goodBlock {length : Word} {tag : Tag} {payload : List Byte} {c : Ic} (hp : c.phase = .len)
    (hc : c.cnt = 0) (hl : payload.length = length.toNat) :
    icPushAll P (encode (.chkblk length tag payload (checksum P.checksum (tagBytes tag ++ payload)))) c =
      ({ c with
        phase := .len, cnt := 0, len := length, rem := 0, tag := tag,
        acc := absorb P.checksum P.checksum.init (tagBytes tag ++ payload),
        stored := checksum P.checksum (tagBytes tag ++ payload) }, [⟨tag, length⟩]) := by
  have hgood : P.checksum.final (absorb P.checksum P.checksum.init (tagBytes tag ++ payload)) =
      checksum P.checksum (tagBytes tag ++ payload) := rfl
  rw [encode, icPushAll_append, icPushAll_beforeCrc hp hc hl]
  simp only [icPushAll_crc, hgood, if_true, List.nil_append]

theorem execWith_chkblkOk {s : State} (tag : Tag) {payload : List Byte} (hp : s.ic.phase = .len) (hc : s.ic.cnt = 0)
    (hl : payload.length < 2 ^ 32) :
    ∃ t, execWith P (chkblkOk P tag payload) s = .next t ∧ atBoundary t.ic = true ∧
      t.host.verdicts = s.host.verdicts ++ [⟨tag, BitVec.ofNat 32 payload.length⟩] := by
  have hlen : payload.length = (BitVec.ofNat 32 payload.length).toNat := by
    rw [BitVec.toNat_ofNat, Nat.mod_eq_of_lt hl]
  refine ⟨_, (execWith_pushes _ _).trans (deliverAll_icPushes _ _), ?_⟩
  rw [chkblkOk, icPushAll_goodBlock hp hc hlen]
  exact ⟨rfl, rfl⟩

/-- Settles O57: the stored checksum of chkblk.ok is the one the machine computes, whatever CHECKSUM it runs with. -/
theorem chkblkOkAccepted : Obligations.ChkblkOkAccepted := by
  intro s tag payload hp hc hl
  refine ⟨?_, fun P => execWith_chkblkOk tag hp hc hl⟩
  rw [exec_eq_execWith]
  exact execWith_chkblkOk tag hp hc hl

end Sys2Proof.Machine
end

section
/-! PROOFS of the family 40_defilter_rows.md: the predictors (R122 to R127), the selector and data steps (R121, R128, R129),
the row operations (R130 to R135), what follows for rows (R137, R140, R141) and whole images (R139). The one idea: a row
record leaves in CUR the one solution of the row's equations (`rowDecoded`), so a statement about a row is a fact about
these equations, and an image is the induction over its rows. -/

namespace Sys2Proof.Machine

variable {P : Config.Params}

/-! ### The predictors -/

/-- Settles O16: the model's 9-bit sum keeps its carry. -/
theorem averageIsExactHalf : Obligations.AverageIsExactHalf := avg_toNat

/-- Settles O19: the carry out of the 9-bit sum is discarded, so it is the 8-bit sum. -/
theorem reconstructAddsModulo256 : Obligations.ReconstructAddsModulo256 := fun f p => by
  rw [reconstruct_eq, BitVec.toNat_add]

/-- R125 with the distances as absolute values of integers. -/
theorem paeth_eq_abs {a b c : Byte} {p : Int} (hp : p = a.toNat + b.toNat - c.toNat) :
    paeth a b c =
      if |p - a.toNat| ≤ |p - b.toNat| ∧ |p - a.toNat| ≤ |p - c.toNat| then a
      else if |p - b.toNat| ≤ |p - c.toNat| then b
      else c := by
  subst hp
  simp only [paeth, ← Int.natCast_natAbs, Nat.cast_le]

/-- Settles O17: the winner of each arm is no farther than the other two. -/
theorem paethPicksNearest : Obligations.PaethPicksNearest := by
  intro a b c p hp
  rw [paeth_eq_abs hp]
  refine ⟨fun ha => if_pos ha, fun ha hb => by rw [if_neg ha, if_pos hb], fun ha hb => by rw [if_neg ha, if_neg hb], ?_⟩
  split_ifs with ha hb
  · exact ⟨.inl rfl, le_rfl, ha⟩
  · exact ⟨.inr (.inl rfl), by omega, le_rfl, hb⟩
  · exact ⟨.inr (.inr rfl), by omega, by omega, le_rfl⟩

/-- The distance in the 11-bit data path of R126. -/
def dist11 (x y : BitVec 11) : BitVec 11 := if (x - y).slt 0 then y - x else x - y

theorem toInt_sub_of_fits {x y : BitVec 11} (h : |x.toInt - y.toInt| < 1024) : (x - y).toInt = x.toInt - y.toInt := by
  rw [abs_lt] at h
  rw [BitVec.toInt_sub, Int.bmod_eq_of_le] <;> omega

/-- Where the difference fits in 11 bits, so does its absolute value. -/
theorem dist11_toInt {x y : BitVec 11} (h : |x.toInt - y.toInt| < 1024) : (dist11 x y).toInt = |x.toInt - y.toInt| := by
  have hxy := toInt_sub_of_fits h
  have hyx := toInt_sub_of_fits (abs_sub_comm x.toInt y.toInt ▸ h)
  have hzero : (0 : BitVec 11).toInt = 0 := rfl
  unfold dist11
  split_ifs with hneg <;> rw [BitVec.slt_iff_toInt_lt, hxy, hzero] at hneg
  · rw [hyx, abs_of_neg hneg, neg_sub]
  · rw [hxy, abs_of_nonneg (not_lt.1 hneg)]

theorem toInt_zeroExtend11 (v : Byte) : (v.zeroExtend 11).toInt = v.toNat := by
  have := v.isLt
  rw [BitVec.toInt_eq_toNat_of_lt] <;> simp <;> omega

/-- `p` lies between -255 and 510 (R126). -/
theorem toInt_paethSum (a b c : Byte) :
    (a.zeroExtend 11 + b.zeroExtend 11 - c.zeroExtend 11).toInt = (a.toNat : Int) + b.toNat - c.toNat := by
  have := a.isLt; have := b.isLt; have := c.isLt
  have hsum : (a.zeroExtend 11 + b.zeroExtend 11).toInt = (a.toNat : Int) + b.toNat := by
    rw [BitVec.toInt_add, toInt_zeroExtend11, toInt_zeroExtend11, Int.bmod_eq_of_le] <;> omega
  have hfits : |(a.toNat : Int) + b.toNat - c.toNat| < 1024 := by rw [abs_lt]; omega
  rw [toInt_sub_of_fits] <;> rw [hsum, toInt_zeroExtend11]
  exact hfits

/-- Settles O18: no difference of R125 leaves the 11-bit range, so signed comparison of distances is R125's own. -/
theorem paethInElevenBits : Obligations.PaethInElevenBits := by
  intro a b c ext dist p
  have := a.isLt; have := b.isLt; have := c.isLt
  have hp : p.toInt = (a.toNat : Int) + b.toNat - c.toNat := toInt_paethSum a b c
  have hdist : ∀ v : Byte, |p.toInt - v.toNat| < 1024 → (dist p (ext v)).toInt = |p.toInt - v.toNat| := fun v hv => by
    rw [← toInt_zeroExtend11 v] at hv ⊢
    exact dist11_toInt hv
  rw [paeth_eq_abs hp]
  simp only [Bool.and_eq_true, BitVec.sle_iff_toInt_le]
  rw [hdist a (by rw [abs_lt]; omega), hdist b (by rw [abs_lt]; omega), hdist c (by rw [abs_lt]; omega)]

/-! ### The neighbors and the predictor of a data step -/

theorem valueOr0_of_ite {c : Prop} [Decidable c] {boundary : Bool} {m : Memory} {a : Nat} {v : Byte}
    (hb : boundary = true ↔ ¬ c) (h : if c then m.read a = some v else v = 0) : valueOr0 boundary m a v := by
  by_cases hc : c
  · rw [if_pos hc] at h
    rwa [valueOr0, if_neg fun hbt => hb.1 hbt hc]
  · rw [if_neg hc] at h
    rwa [valueOr0, if_pos (hb.2 hc)]

/-- Settles O15: the mux's three boundary tests. -/
theorem neighborMuxByPosition : Obligations.NeighborMuxByPosition := by
  intro d n hn
  obtain ⟨hleft, habove, hcorner⟩ := neighborMux_eq_next.1 hn
  have hrow : d.row = 0 ↔ ¬ 1 ≤ d.row.toNat := by bv_omega
  exact ⟨valueOr0_of_ite (by simp) hleft, valueOr0_of_ite (by rw [decide_eq_true_eq, hrow]) habove,
    valueOr0_of_ite (by simp only [Bool.or_eq_true, decide_eq_true_eq, hrow]; omega) hcorner⟩

theorem predictor_eq_pred {sel : Byte} (h : sel.toNat ≤ 4) (n : Neighbors) : predictor sel n = .next (pred sel n) :=
  predictor_legal sel n h

theorem selLegal_of_le {sel : Byte} (h : sel.toNat ≤ 4) : selLegal sel = true := decide_eq_true h

theorem valueOr0_unique {boundary : Bool} {m : Memory} {a : Nat} {v v' : Byte} (h : valueOr0 boundary m a v)
    (h' : valueOr0 boundary m a v') : v = v' := by
  cases boundary with
  | true => exact h.trans h'.symm
  | false => exact Option.some.inj (h.symm.trans h')

theorem valueOr0_congr {boundary : Bool} {m m' : Memory} {a a' : Nat} {v : Byte} (h : valueOr0 boundary m a v)
    (hread : boundary = false → m'.read a' = m.read a) : valueOr0 boundary m' a' v := by
  cases boundary with
  | true => exact h
  | false => exact (hread rfl).trans h

/-! ### One push -/

/-- The previous row ends where the row begins (20_memory.md R62). -/
theorem prevRow_end {y : Nat} (hy : y ≠ 0) (S : Nat) : (y - 1) * S + S = y * S := by
  rw [← Nat.succ_mul, Nat.succ_eq_add_one, Nat.sub_add_cancel (by omega)]

theorem row_end_le {y h : Nat} (hy : y < h) (n : Nat) : y * n + n ≤ h * n := by
  rw [← Nat.succ_mul]
  exact Nat.mul_le_mul_right n hy

/-- Where the invariant holds the mux finds the entries it reads: CUR up to the column (R31), the whole PRIOR (R30). -/
theorem DfInv.neighborMux_total {d : Df} (h : DfInv d) (hs : d.state = .data) : ∃ n, neighborMux d = .next n := by
  obtain ⟨hcol, -, -⟩ := h.data hs
  have hr : running d := .inr (.inl hs)
  have hprior : 1 ≤ d.row.toNat → ∀ i, i < Config.stride d.width → (d.prior.read i).isSome = true := fun hrow i hi => by
    have hprev := prevRow_end (y := d.row.toNat) (by omega) (Config.stride d.width)
    rw [h.priorRow hr (by bv_omega) i hi]
    exact h.outWritten hr _ (by simp only [outAddress]; omega)
  refine Machine.neighborMux_total (fun h3 => ?_) fun hrow => ⟨hprior hrow _ hcol, fun h3 => hprior hrow _ (by omega)⟩
  rw [h.curRow hs _ (by omega)]
  exact h.outWritten hr _ (by simp only [outAddress]; omega)

/-- A data step with a legal selector, and the neighbors the mux reads before it. -/
theorem dfPush_data {d : Df} {n : Neighbors} (hs : d.state = .data) (hsel : d.sel.toNat ≤ 4) (hn : neighborMux d = .next n)
    (f : Byte) : dfPush f d = .next (storeByte (f + pred d.sel n) d) := by
  simp only [dfPush, hs]
  exact dataStep_eq_next.2 ⟨n, _, hn, predictor_eq_pred hsel n, rfl⟩

theorem storeByte_cur (r : Byte) (d : Df) : (storeByte r d).cur = d.cur.write d.col.toNat r := by
  by_cases hmid : d.col.toNat + 1 < Config.stride d.width
  · rw [storeByte_mid hmid]
  · rw [storeByte_last hmid]

theorem storeByte_kept (r : Byte) (d : Df) :
    (storeByte r d).width = d.width ∧ (storeByte r d).height = d.height ∧ (storeByte r d).sel = d.sel ∧
      (storeByte r d).errKind = d.errKind ∧ (storeByte r d).errRow = d.errRow ∧
      (storeByte r d).errValue = d.errValue := by
  by_cases hmid : d.col.toNat + 1 < Config.stride d.width
  · rw [storeByte_mid hmid]; exact ⟨rfl, rfl, rfl, rfl, rfl, rfl⟩
  · rw [storeByte_last hmid]; exact ⟨rfl, rfl, rfl, rfl, rfl, rfl⟩

/-- Settles O21: the stored byte, the registers a data step keeps, and its two ways to move on. -/
theorem dataStepStoresAndAdvances : Obligations.DataStepStoresAndAdvances := by
  refine ⟨fun d h hs => ⟨(h.data hs).2.2, h.neighborMux_total hs⟩, fun P s f n hs hsel hn => ?_⟩
  obtain ⟨hwidth, hheight, hsel', hkind, herow, hevalue⟩ := storeByte_kept (f + pred s.df.sel n) s.df
  refine ⟨storeByte (f + pred s.df.sel n) s.df, by rw [deliver, dfPush_data hs hsel hn]; rfl,
    fun i => by rw [storeByte_cur, Memory.read_write], fun a => by rw [storeByte_out, Memory.read_write, outAddress],
    hwidth, hheight, hsel', hkind, herow, hevalue, fun hmid => ?_, fun hend => ?_⟩
  · rw [storeByte_mid hmid]
    exact ⟨hs, rfl, rfl, rfl⟩
  · rw [storeByte_last (by omega)]
    exact ⟨rfl, rfl, fun i => Memory.read_below _ _ i, fun hrow => if_pos hrow, fun hrow => if_neg (by omega)⟩

theorem dfPush_select {d : Df} (hs : d.state = .select) (b : Byte) : dfPush b d = .next (selectorStep b d) := by
  simp only [dfPush, hs]

theorem selectorStep_legal {b : Byte} (h : b.toNat ≤ 4) (d : Df) :
    selectorStep b d = { d with sel := b, col := 0, state := .data } := if_pos (selLegal_of_le h)

theorem selectorStep_illegal {b : Byte} (h : selLegal b = false) (d : Df) : selectorStep b d = selectorFault b d := by
  rw [selectorStep, h]; rfl

/-- Settles O20, by the selector test. -/
theorem selectorStepByByte : Obligations.SelectorStepByByte := by
  intro P s b hs
  have hpush : deliver P (.dfPush b) s = .next (s.withDf (selectorStep b s.df)) := by rw [deliver, dfPush_select hs]; rfl
  refine ⟨fun h => stride_pos (h.dims (.inl hs)).1, fun hb => ?_, fun hb => ?_⟩
  · rw [hpush, selectorStep_legal hb]
  · rw [hpush, selectorStep_illegal (decide_eq_false (by omega))]

/-! ### Records run from SELECT -/

theorem exec_df {i : Instr} (h : i.unit = .df) (s : State) : exec i s = onDf (dfPushAll (encode i) s.df) s :=
  (exec_eq_execWith i s).trans (execWith_df h s)

/-- An illegal selector raises, with the whole byte as its value (R135). -/
theorem exec_illegalRow {s : State} {i : Instr} {sel : Byte} (hs : s.df.state = .select) (hu : i.unit = .df)
    (h : IllegalRecord sel i) : exec i s = .next (s.withDf (selectorFault sel s.df)) := by
  obtain ⟨hsel, henc, -⟩ := h
  rw [exec_df hu, henc]
  simp only [dfPushAll, dfPush_select hs, andThen_next, selectorStep_illegal hsel]
  rfl

theorem exec_illegalRow_value {s : State} {i : Instr} {sel : Byte} {value : Nat} (hs : s.df.state = .select)
    (hu : i.unit = .df) (h : IllegalRecord sel i ∧ sel.toNat = value) :
    ∃ v : Byte, v.toNat = value ∧ exec i s = .next (s.withDf (selectorFault v s.df)) :=
  ⟨sel, h.2, exec_illegalRow hs hu h.1⟩

/-- Settles O27: each row of the map, at every value of its free bits, is one illegal selector byte (R104). -/
theorem illegalSelectorsRaise : Obligations.IllegalSelectorsRaise := by
  intro s hs
  have h06 : ∀ low : BitVec 1, IllegalRecord (0b0000011#7 ++ low) (.rowIllegal0607 low) ∧
      (0b0000011#7 ++ low).toNat = 0x06 + low.toNat := by decide
  have h08 : ∀ low : BitVec 3, IllegalRecord (0b00001#5 ++ low) (.rowIllegal080F low) ∧
      (0b00001#5 ++ low).toNat = 0x08 + low.toNat := by decide
  have h10 : ∀ low : BitVec 4, IllegalRecord (0b0001#4 ++ low) (.rowIllegal101F low) ∧
      (0b0001#4 ++ low).toNat = 0x10 + low.toNat := by decide
  have h20 : ∀ low : BitVec 5, IllegalRecord (0b001#3 ++ low) (.rowIllegal203F low) ∧
      (0b001#3 ++ low).toNat = 0x20 + low.toNat := by decide
  have h40 : ∀ low : BitVec 6, IllegalRecord (0b01#2 ++ low) (.rowIllegal407F low) ∧
      (0b01#2 ++ low).toNat = 0x40 + low.toNat := by decide
  have h80 : ∀ low : BitVec 7, IllegalRecord (0b1#1 ++ low) (.rowIllegal80FF low) ∧
      (0b1#1 ++ low).toNat = 0x80 + low.toNat := by decide
  exact ⟨exec_illegalRow hs rfl (by decide),
    fun low => exec_illegalRow_value hs rfl (h06 low), fun low => exec_illegalRow_value hs rfl (h08 low),
    fun low => exec_illegalRow_value hs rfl (h10 low), fun low => exec_illegalRow_value hs rfl (h20 low),
    fun low => exec_illegalRow_value hs rfl (h40 low), fun low => exec_illegalRow_value hs rfl (h80 low)⟩

theorem fetch_rowRecord {s : State} {i : Instr} {rest : List Token} (hs : s.df.state = .select) (hu : i.unit = .df)
    (hwf : i.wellFormed s.df.width = true) (hp : s.host.pending = dfPushes (encode i) ++ rest) :
    fetch s = .record i rest := by
  obtain ⟨b, bs, hb⟩ := List.exists_cons_of_ne_nil (encode_ne_nil i)
  have hcons : Token.dfPush b :: (dfPushes bs ++ rest) = dfPushes (encode i) ++ rest := by rw [hb]; rfl
  have hlen : (dfPushes (encode i)).length = (encode i).length := List.length_map _
  have hfetch : fetch s = recordOr (.dfPush b) (dfPushes bs ++ rest)
      (decode .df s.df.width (dfBytes (.dfPush b :: (dfPushes bs ++ rest)))) := by
    simp only [fetch, hp.trans hcons.symm, hs, if_true]
  rw [hfetch, hcons, dfBytes_append, decode_df_encode hu hwf, recordOr, hcons, ← hlen, List.drop_left]

/-- Settles O6: in SELECT the whole record is fetched, whatever the parameters. -/
theorem stepRunsRowRecord : Obligations.StepRunsRowRecord := by
  intro s i rest hs hu hwf hp
  have hwith : ∀ P, stepWith P s = execWith P i (s.withPending rest) := fun P => by
    rw [stepWith, runFetched, fetch_rowRecord hs hu hwf hp]
  refine ⟨?_, hwith⟩
  rw [step_eq_stepWith, hwith, exec_eq_execWith]

/-! ### The row operations -/

/-- A legal row record from SELECT: its frame, and CUR the decoded row. -/
theorem pushRow_taken {sel : Byte} {f : List Byte} {d : Df} (hsel : sel.toNat ≤ 4) (h : RowReady f d) :
    ∃ e, dfPushAll (sel :: f) d = .next e ∧ RowTaken sel d e ∧
      rowDecoded sel f (Config.stride d.width) (decide (d.row = 0)) d.prior e.cur := by
  obtain ⟨hs, hw, hf, hp⟩ := h
  obtain ⟨e, he, hfields, hcur, hout, hrow, hdec, -, -⟩ := pushRow sel f d hs hsel hf hw hp
  refine ⟨e, he, ?_, hdec⟩
  exact {
    sel := congrArg Df.sel hfields
    position := ⟨congrArg Df.row hfields, congrArg Df.col hfields⟩
    state := congrArg Df.state hfields
    kept := by rw [hfields]; exact ⟨rfl, rfl, rfl, rfl, rfl⟩
    prior := fun i => by rw [congrArg Df.prior hfields]; exact Memory.read_below _ _ i
    cur := fun i => by
      split
      next hi => exact (hrow i hi).symm
      next hi => exact hcur i (not_lt.1 hi)
    out := hout }

theorem exec_rowInstr {sel : Byte} (hsel : sel.toNat ≤ 4) (f : List Byte) (s : State) :
    exec (rowInstr sel f) s = onDf (dfPushAll (sel :: f) s.df) s := by
  rw [exec_df (rowInstr_unit sel f), encode_rowInstr_legal (selLegal_of_le hsel)]

theorem exec_row {s : State} {sel : Byte} {f : List Byte} (hsel : sel.toNat ≤ 4) (h : RowReady f s.df) :
    ∃ e, exec (rowInstr sel f) s = .next (s.withDf e) ∧ RowTaken sel s.df e ∧
      rowDecoded sel f (Config.stride s.df.width) (decide (s.df.row = 0)) s.df.prior e.cur := by
  obtain ⟨e, he, htaken, hdec⟩ := pushRow_taken hsel h
  exact ⟨e, by rw [exec_rowInstr hsel, he]; rfl, htaken, hdec⟩

theorem RowTaken.out_read {sel : Byte} {d e : Df} (h : RowTaken sel d e) {i : Nat} (hi : i < Config.stride d.width) :
    e.out.read (d.row.toNat * Config.stride d.width + i) = e.cur.read i := by
  have hcur := h.cur i
  rw [if_pos hi] at hcur
  exact hcur.symm

/-- The decoded row as it stands in the output. -/
theorem RowTaken.decoded_out {sel : Byte} {d e : Df} {f : List Byte} {first : Bool} {above : Memory}
    (h : RowTaken sel d e) (hdec : rowDecoded sel f (Config.stride d.width) first above e.cur) {i : Nat}
    (hi : i < Config.stride d.width) :
    ∃ n : Neighbors, valueOr0 (decide (i < 3)) e.out (d.row.toNat * Config.stride d.width + i - 3) n.left ∧
      valueOr0 first above i n.above ∧ valueOr0 (first || decide (i < 3)) above (i - 3) n.aboveLeft ∧
      e.out.read (d.row.toNat * Config.stride d.width + i) = some (f.getD i 0 + pred sel n) := by
  obtain ⟨n, hleft, habove, hcorner, hv⟩ := hdec i hi
  refine ⟨n, valueOr0_congr hleft fun hb => ?_, habove, hcorner, (h.out_read hi).trans hv⟩
  rw [Nat.add_sub_assoc (by simpa using hb)]
  exact h.out_read (by omega)

/-- Settles O22: under selector 0 the predictor is 0. -/
theorem rowNoneCopies : Obligations.RowNoneCopies := by
  intro s f h
  obtain ⟨e, he, htaken, hdec⟩ := exec_row (sel := 0) (by decide) h
  refine ⟨e, he, htaken, fun i hi => ?_⟩
  obtain ⟨n, -, -, -, hv⟩ := htaken.decoded_out hdec hi
  exact hv.trans (congrArg some (BitVec.add_zero _))

/-- Settles O23: under selector 1 the predictor is left. -/
theorem rowSubAddsLeft : Obligations.RowSubAddsLeft := by
  intro s f h
  obtain ⟨e, he, htaken, hdec⟩ := exec_row (sel := 1) (by decide) h
  refine ⟨e, he, htaken, fun i hi => ?_⟩
  obtain ⟨n, hleft, -, -, hv⟩ := htaken.decoded_out hdec hi
  exact ⟨n.left, hleft, hv⟩

/-- Settles O24: under selector 2 the predictor is above. -/
theorem rowUpAddsAbove : Obligations.RowUpAddsAbove := by
  intro s f h
  obtain ⟨e, he, htaken, hdec⟩ := exec_row (sel := 2) (by decide) h
  refine ⟨e, he, htaken, fun i hi => ?_⟩
  obtain ⟨n, -, habove, -, hv⟩ := htaken.decoded_out hdec hi
  exact ⟨n.above, habove, hv⟩

/-- Settles O25: under selector 3 the predictor is the exact average. -/
theorem rowAvgAddsAverage : Obligations.RowAvgAddsAverage := by
  intro s f h
  obtain ⟨e, he, htaken, hdec⟩ := exec_row (sel := 3) (by decide) h
  refine ⟨e, he, htaken, fun i hi => ?_⟩
  obtain ⟨n, hleft, habove, -, hv⟩ := htaken.decoded_out hdec hi
  exact ⟨n.left, n.above, hleft, habove, hv⟩

/-- Settles O26: under selector 4 the predictor is Paeth's. -/
theorem rowPaethAddsPaeth : Obligations.RowPaethAddsPaeth := by
  intro s f h
  obtain ⟨e, he, htaken, hdec⟩ := exec_row (sel := 4) (by decide) h
  refine ⟨e, he, htaken, fun i hi => ?_⟩
  obtain ⟨n, hleft, habove, hcorner, hv⟩ := htaken.decoded_out hdec hi
  exact ⟨n.left, n.above, n.aboveLeft, hleft, habove, hcorner, hv⟩

/-! ### What the equations of a row determine -/

theorem neighbors_eq {n m : Neighbors} (hleft : n.left = m.left) (habove : n.above = m.above)
    (hcorner : n.aboveLeft = m.aboveLeft) : n = m := by
  cases n; cases m; cases hleft; cases habove; cases hcorner; rfl

/-- The equations of a row relate positions three apart only, so each channel is determined by itself (R140). -/
theorem rowDecoded_channel {sel : Byte} {f f' : List Byte} {S k : Nat} {first : Bool} {above above' row row' : Memory}
    (h : rowDecoded sel f S first above row) (h' : rowDecoded sel f' S first above' row')
    (hk : ∀ i, i < S → i % 3 = k → f'.getD i 0 = f.getD i 0 ∧ above'.read i = above.read i) (i : Nat) (hi : i < S)
    (hik : i % 3 = k) : row'.read i = row.read i := by
  induction i using Nat.strong_induction_on with
  | _ i ih =>
    obtain ⟨n, hleft, habove, hcorner, hv⟩ := h i hi
    obtain ⟨n', hleft', habove', hcorner', hv'⟩ := h' i hi
    obtain ⟨hf, hread⟩ := hk i hi hik
    have hleft_eq : n'.left = n.left := valueOr0_unique hleft'
      (valueOr0_congr hleft fun hb => by
        have h3 : 3 ≤ i := by simpa using hb
        exact ih (i - 3) (by omega) (by omega) (by omega))
    have habove_eq : n'.above = n.above := valueOr0_unique habove' (valueOr0_congr habove fun _ => hread)
    have hcorner_eq : n'.aboveLeft = n.aboveLeft := valueOr0_unique hcorner'
      (valueOr0_congr hcorner fun hb => by
        obtain ⟨-, h3⟩ : first = false ∧ 3 ≤ i := by simpa using hb
        exact (hk (i - 3) (by omega) (by omega)).2)
    rw [hv', hv, hf, neighbors_eq hleft_eq habove_eq hcorner_eq]

/-- Settles O31: both rows solve equations that agree on the channel. -/
theorem channelsIndependent : Obligations.ChannelsIndependent := by
  intro s s' sel f f' k hsel h h' hwidth hrow hk
  obtain ⟨e, he, htaken, hdec⟩ := exec_row hsel h
  obtain ⟨e', he', htaken', hdec'⟩ := exec_row hsel h'
  rw [hwidth, decide_eq_decide.2 hrow] at hdec'
  refine ⟨e, e', he, he', fun i hi hik => ?_⟩
  rw [htaken.out_read hi, ← hwidth, htaken'.out_read (hwidth ▸ hi)]
  exact rowDecoded_channel hdec hdec' hk i hi hik

/-- Adding the predictor undoes its subtraction, position by position (R141). -/
theorem rowDecoded_unfilter {sel : Byte} {f target : List Byte} {S : Nat} {first : Bool} {above row : Memory}
    {n : Nat → Neighbors} (h : rowDecoded sel f S first above row)
    (hn : ∀ i, i < S → (n i).left = (if i < 3 then 0 else target.getD (i - 3) 0) ∧ valueOr0 first above i (n i).above ∧
      valueOr0 (first || decide (i < 3)) above (i - 3) (n i).aboveLeft ∧ f.getD i 0 = target.getD i 0 - pred sel (n i))
    (i : Nat) (hi : i < S) : row.read i = some (target.getD i 0) := by
  induction i using Nat.strong_induction_on with
  | _ i ih =>
    obtain ⟨m, hleft, habove, hcorner, hv⟩ := h i hi
    obtain ⟨hleft', habove', hcorner', hf⟩ := hn i hi
    have hleft_eq : m.left = (n i).left := by
      refine valueOr0_unique hleft (valueOr0_of_ite (c := ¬ i < 3) (by simp) ?_)
      split
      next h3 => rw [hleft', if_neg h3]; exact ih (i - 3) (by omega) (by omega)
      next h3 => rw [hleft', if_pos (not_not.1 h3)]
    have habove_eq : m.above = (n i).above := valueOr0_unique habove habove'
    have hcorner_eq : m.aboveLeft = (n i).aboveLeft := valueOr0_unique hcorner hcorner'
    rw [hv, hf, neighbors_eq hleft_eq habove_eq hcorner_eq, BitVec.sub_add_cancel]

/-- Settles O33: the decoded row is the target. -/
theorem filteredRowDecodesBack : Obligations.FilteredRowDecodesBack := by
  intro s sel f target n hsel h _ hn
  obtain ⟨e, he, htaken, hdec⟩ := exec_row hsel h
  exact ⟨e, he, fun i hi => (htaken.out_read hi).trans (rowDecoded_unfilter hdec hn i hi)⟩

/-! ### A row under another selector or HEIGHT -/

/-- The mux has nothing to read above row 0 (R122). -/
theorem neighborMux_firstRow {d : Df} {n : Neighbors} (hn : neighborMux d = .next n) (hrow : d.row = 0) :
    n.above = 0 ∧ n.aboveLeft = 0 := by
  obtain ⟨-, habove, hcorner⟩ := neighborMuxByPosition d n hn
  simp only [hrow, decide_true, Bool.true_or] at habove hcorner
  exact ⟨habove, hcorner⟩

/-- The two selectors predict alike from every three values the mux can give in DF's row. -/
abbrev PredictAlike (sel sel' : Byte) (d : Df) : Prop :=
  ∀ n : Neighbors, (d.row = 0 → n.above = 0 ∧ n.aboveLeft = 0) → predictor sel' n = predictor sel n

/-- Until the end of the row a data step reads of SEL only the predictor and of HEIGHT nothing, and the end of the row
reads HEIGHT for STATE only (R128, R129). -/
theorem dfPushAll_rest_congr {sel : Byte} {h : Word} {bs : List Byte} {d e : Df} (hs : d.state = .data)
    (hne : bs ≠ []) (hl : d.col.toNat + bs.length = Config.stride d.width) (hpred : PredictAlike d.sel sel d)
    (he : dfPushAll bs d = .next e) :
    dfPushAll bs { d with sel := sel, height := h } = .next { e with
      sel := sel, height := h, state := if d.row.toNat + 1 < h.toNat then .select else .done } := by
  induction bs generalizing d with
  | nil => exact absurd rfl hne
  | cons b bs ih =>
    obtain ⟨d', hd', he⟩ := andThen_eq_next.1 he
    simp only [dfPush, hs] at hd'
    obtain ⟨n, p, hn, hp, rfl⟩ := dataStep_eq_next.1 hd'
    have hstep : dfPush b { d with sel := sel, height := h } =
        .next (storeByte (b + p) { d with sel := sel, height := h }) := by
      simp only [dfPush, hs]
      exact dataStep_eq_next.2 ⟨n, p, hn, (hpred n (neighborMux_firstRow hn)).trans hp, rfl⟩
    rw [dfPushAll, hstep, andThen_next]
    simp only [List.length_cons] at hl
    cases bs with
    | nil =>
      have hlast : ¬ d.col.toNat + 1 < Config.stride d.width := by simp only [List.length_nil] at hl; omega
      rw [storeByte_last hlast] at he
      rw [storeByte_last (d := { d with sel := sel, height := h }) hlast]
      cases he
      rfl
    | cons c cs =>
      have hmid : d.col.toNat + 1 < Config.stride d.width := by simp only [List.length_cons] at hl; omega
      rw [storeByte_mid hmid] at he
      rw [storeByte_mid (d := { d with sel := sel, height := h }) hmid]
      exact ih (d := { d with
        cur := d.cur.write d.col.toNat (b + p), out := d.out.write (outAddress d) (b + p), col := d.col + 1 })
        hs (by simp) (by simp only [col_succ_toNat hmid.le]; omega) hpred he

/-- The same row record under a selector that predicts alike, and any HEIGHT. -/
theorem pushRow_congr {sel sel' : Byte} {f : List Byte} {d : Df} (hsel : sel.toNat ≤ 4) (hsel' : sel'.toNat ≤ 4)
    (hr : RowReady f d) (hpred : PredictAlike sel sel' d) (h : Word) :
    ∃ e e', dfPushAll (sel :: f) d = .next e ∧ RowTaken sel d e ∧
      dfPushAll (sel' :: f) { d with height := h } = .next e' ∧
      e' = { e with sel := sel', height := h, state := if d.row.toNat + 1 < h.toNat then .select else .done } := by
  obtain ⟨e, he, htaken, -⟩ := pushRow_taken hsel hr
  obtain ⟨hs, hw, hf, -⟩ := hr
  refine ⟨e, _, he, htaken, ?_, rfl⟩
  rw [dfPushAll, dfPush_select hs, andThen_next, selectorStep_legal hsel] at he
  have hS := stride_pos hw
  have hs' : ({ d with height := h } : Df).state = .select := hs
  rw [dfPushAll, dfPush_select hs', andThen_next, selectorStep_legal hsel']
  exact dfPushAll_rest_congr (sel := sel') rfl (by rintro rfl; rw [List.length_nil] at hf; omega) (by simpa using hf) hpred he

/-- Two row operations that predict alike leave the same DF but for SEL. -/
theorem exec_row_congr {sel sel' : Byte} {f : List Byte} {s : State} (hsel : sel.toNat ≤ 4) (hsel' : sel'.toNat ≤ 4)
    (hr : RowReady f s.df) (hpred : PredictAlike sel sel' s.df) :
    ∃ e e', exec (rowInstr sel f) s = .next (s.withDf e) ∧ exec (rowInstr sel' f) s = .next (s.withDf e') ∧
      { e with sel := 0 } = { e' with sel := 0 } := by
  obtain ⟨e, e', he, htaken, he', hfields⟩ := pushRow_congr hsel hsel' hr hpred s.df.height
  obtain ⟨-, hheight, -⟩ := htaken.kept
  refine ⟨e, e', by rw [exec_rowInstr hsel, he]; rfl, by rw [exec_rowInstr hsel', he']; rfl, ?_⟩
  simp only [hfields, hheight, ← htaken.state]

theorem paeth_zero_zero (a : Byte) : paeth a 0 0 = a := by
  rw [paeth_eq_abs rfl, if_pos]
  simp

/-- Settles O30: with nothing above, Paeth's predictor is left and Up's is 0. -/
theorem firstRowEquivalences : Obligations.FirstRowEquivalences := by
  intro s f hr hrow
  refine ⟨exec_row_congr (sel := 4) (sel' := 1) (by decide) (by decide) hr fun n hn => ?_,
    exec_row_congr (sel := 2) (sel' := 0) (by decide) (by decide) hr fun n hn => ?_⟩
  · obtain ⟨habove, hcorner⟩ := hn hrow
    have hpaeth : predictor 4 n = .next (paeth n.left n.above n.aboveLeft) := rfl
    rw [hpaeth, habove, hcorner, paeth_zero_zero]
    rfl
  · have hup : predictor 2 n = .next n.above := rfl
    rw [hup, (hn hrow).1]
    rfl

/-- Settles O32: HEIGHT is read for STATE only. -/
theorem rowIgnoresHeight : Obligations.RowIgnoresHeight := by
  intro s sel f h hsel hr
  obtain ⟨e, e', he, -, he', hfields⟩ := pushRow_congr hsel hsel hr (fun _ _ => rfl) h
  exact ⟨e, e', by rw [exec_rowInstr hsel, he]; rfl, by rw [exec_rowInstr hsel, State.withDf_df, he']; rfl,
    by rw [hfields], by rw [hfields], by rw [hfields], by rw [hfields]⟩

/-! ### Any bytes pushed where the invariant holds -/

/-- A push writes at the current address only, and moves it by one at most. -/
theorem DfInv.dfPush_out {b : Byte} {d e : Df} (h : DfInv d) (hd : Machine.dfPush b d = .next e) :
    outAddress d ≤ outAddress e ∧ outAddress e ≤ outAddress d + 1 ∧
      ∀ a, a ≠ outAddress d → e.out.read a = d.out.read a := by
  obtain ⟨hs, rfl⟩ | ⟨hs, n, p, -, -, rfl⟩ | ⟨-, rfl⟩ := dfPush_cases hd
  · have haddr : outAddress (Machine.selectorStep b d) = outAddress d := by
      unfold Machine.selectorStep
      split
      · simp only [outAddress, (h.select hs).1]
      · rfl
    have hout : (Machine.selectorStep b d).out = d.out := by unfold Machine.selectorStep; split <;> rfl
    exact ⟨haddr.ge, by omega, fun a _ => by rw [hout]⟩
  · rw [outAddress_storeByte h hs, storeByte_out]
    exact ⟨by omega, le_rfl, fun a ha => Memory.read_write_other _ _ ha⟩
  · exact ⟨le_rfl, by omega, fun _ _ => rfl⟩

theorem DfInv.dfPushAll_frame {bs : List Byte} {d e : Df} (h : DfInv d) (hd : dfPushAll bs d = .next e) :
    e.width = d.width ∧ e.height = d.height ∧
      ∀ a, a < outAddress d ∨ outAddress d + bs.length ≤ a → e.out.read a = d.out.read a := by
  induction bs generalizing d with
  | nil => cases hd; exact ⟨rfl, rfl, fun _ _ => rfl⟩
  | cons b bs ih =>
    obtain ⟨d', hd', he⟩ := andThen_eq_next.1 hd
    obtain ⟨hlow, hhigh, hout⟩ := h.dfPush_out hd'
    obtain ⟨hw, hh⟩ := dfPush_dims hd'
    obtain ⟨hw', hh', hout'⟩ := ih (h.dfPush hd') he
    refine ⟨hw'.trans hw, hh'.trans hh, fun a ha => ?_⟩
    simp only [List.length_cons] at ha
    rw [hout' a (by omega), hout a (by omega)]

/-- Settles O29: a row record is its bytes, each written at the current address or not at all. -/
theorem rowRecordFrame : Obligations.RowRecordFrame := by
  intro s t i hu h ht
  rw [exec_df hu] at ht
  obtain ⟨e, he, hst⟩ := andThen_eq_next.1 ht
  cases hst
  exact ⟨rfl, rfl, h.dfPushAll_frame he⟩

theorem DfInv.dfPush_total {d : Df} (h : DfInv d) (b : Byte) : ∃ e, Machine.dfPush b d = .next e := by
  cases hs : d.state with
  | select => exact ⟨_, dfPush_select hs b⟩
  | data =>
    obtain ⟨n, hn⟩ := h.neighborMux_total hs
    exact ⟨_, dfPush_data hs (h.data hs).2.2 hn b⟩
  | idle | done | fault => exact ⟨d, by simp only [Machine.dfPush, hs]⟩

theorem dfPushAll_ended {d : Df} (hs : d.state = .done ∨ d.state = .fault) (bs : List Byte) :
    dfPushAll bs d = .next d := by
  induction bs with
  | nil => rfl
  | cons b bs ih =>
    have hpush : dfPush b d = .next d := by rcases hs with hs | hs <;> simp only [dfPush, hs]
    rw [dfPushAll, hpush, andThen_next, ih]

theorem programLength_of_dims {d e : Df} (hw : e.width = d.width) (hh : e.height = d.height) :
    programLength e = programLength d := by rw [programLength, programLength, hw, hh]

/-- Before DONE the row in progress is not complete (10_state.md R34), so the position does not pass the program's end. -/
theorem DfInv.consumed_le {d : Df} (h : DfInv d) (hr : running d) : consumed d ≤ programLength d := by
  have hlt : d.row.toNat < d.height.toNat →
      d.row.toNat * (1 + Config.stride d.width) + (1 + Config.stride d.width) ≤ programLength d :=
    fun hrow => row_end_le hrow _
  obtain hs | hs | hs := hr
  · have := hlt (h.select hs).2
    simp only [consumed, hs, reduceCtorEq, if_false]
    omega
  · obtain ⟨hcol, hrow, -⟩ := h.data hs
    have := hlt hrow
    simp only [consumed, hs, if_true]
    omega
  · exact ((h.done_iff_consumed (.inr (.inr hs))).1 hs).le

theorem DfInv.dfPush_running {b : Byte} {d e : Df} (h : DfInv d) (hs : d.state = .select ∨ d.state = .data)
    (hd : Machine.dfPush b d = .next e) (hf : e.state ≠ .fault) : running e := by
  obtain ⟨hsel, rfl⟩ | ⟨hdata, n, p, -, -, rfl⟩ | ⟨hrest, -⟩ := dfPush_cases hd
  · exact (consumed_selectorStep hsel hf).1
  · exact (consumed_storeByte h hdata).1
  · rcases hs with hs | hs <;> simp [hs] at hrest

/-- Each byte that does not raise takes the position one further (O35), until DONE or FAULT, where the rest is ignored. -/
theorem DfInv.dfPushAll_ends {bs : List Byte} {d : Df} (h : DfInv d) (hr : running d) :
    ∃ e, dfPushAll bs d = .next e ∧ (consumed d + bs.length < programLength d → e.state ≠ .done) ∧
      (programLength d ≤ consumed d + bs.length → e.state = .done ∨ e.state = .fault) := by
  induction bs generalizing d with
  | nil =>
    have hle := h.consumed_le hr
    have hiff := h.done_iff_consumed hr
    exact ⟨d, rfl, fun hlt hdone => hlt.ne (hiff.1 hdone), fun hge => .inl (hiff.2 (hle.antisymm hge))⟩
  | cons b bs ih =>
    by_cases hdone : d.state = .done
    · have hend := (h.done_iff_consumed hr).1 hdone
      exact ⟨d, dfPushAll_ended (.inl hdone) _, fun hlt => by omega, fun _ => .inl hdone⟩
    have hs : d.state = .select ∨ d.state = .data := hr.imp_right fun h' => h'.resolve_right hdone
    obtain ⟨d', hd'⟩ := h.dfPush_total b
    have hall : dfPushAll (b :: bs) d = dfPushAll bs d' := by rw [dfPushAll, hd', andThen_next]
    rw [hall]
    by_cases hf : d'.state = .fault
    · exact ⟨d', dfPushAll_ended (.inr hf) _, fun _ => by simp [hf], fun _ => .inr hf⟩
    · obtain ⟨hpos, -⟩ := pushAdvancesByOne d d' b h hs hd' hf
      obtain ⟨hw, hh⟩ := dfPush_dims hd'
      obtain ⟨e, he, hbefore, hafter⟩ := ih (h.dfPush hd') (h.dfPush_running hs hd' hf)
      rw [hpos, programLength_of_dims hw hh] at hbefore hafter
      rw [List.length_cons]
      exact ⟨e, he, fun hlt => hbefore (by omega), fun hge => hafter (by omega)⟩

/-- Settles O36, by induction on the bytes. -/
theorem runEndsAfterWholeProgram : Obligations.RunEndsAfterWholeProgram := by
  intro P s bs h hs
  obtain ⟨e, he, hbefore, hafter⟩ := h.dfPushAll_ends (bs := bs) (hs.imp_right .inl)
  exact ⟨e, by rw [deliverAll_dfPushes, he]; rfl, hbefore, hafter⟩

/-! ### A whole image -/

/-- Row `y` of an output space solves the equations of R139 for a selector and its filtered bytes. -/
def rowSolves (out : Memory) (S y : Nat) (sel : Byte) (f : List Byte) : Prop :=
  ∀ i, i < S → ∃ n : Neighbors,
    valueOr0 (decide (i < 3)) out (y * S + i - 3) n.left ∧
    valueOr0 (decide (y = 0)) out ((y - 1) * S + i) n.above ∧
    valueOr0 (decide (y = 0) || decide (i < 3)) out ((y - 1) * S + i - 3) n.aboveLeft ∧
    out.read (y * S + i) = some (f.getD i 0 + pred sel n)

/-- The equations of a row read the output up to the end of the row only. -/
theorem rowSolves_congr {out out' : Memory} {S y : Nat} {sel : Byte} {f : List Byte} (h : rowSolves out S y sel f)
    (hread : ∀ a, a < y * S + S → out'.read a = out.read a) : rowSolves out' S y sel f := by
  intro i hi
  obtain ⟨n, hleft, habove, hcorner, hv⟩ := h i hi
  have hprev : (y - 1) * S ≤ y * S := Nat.mul_le_mul_right _ (Nat.sub_le _ _)
  exact ⟨n, valueOr0_congr hleft fun _ => hread _ (by omega), valueOr0_congr habove fun _ => hread _ (by omega),
    valueOr0_congr hcorner fun _ => hread _ (by omega), by rw [hread _ (by omega), hv]⟩

/-- DF between two rows of a run: PRIOR holds the previous row as it stands in the output (10_state.md R30). -/
structure BetweenRows (d : Df) : Prop where
  width : d.width ≠ 0
  state : d.state = if d.row.toNat < d.height.toNat then .select else .done
  col : d.col = 0
  prior : d.row ≠ 0 → ∀ i, i < Config.stride d.width →
    (d.prior.read i).isSome = true ∧ d.prior.read i = d.out.read ((d.row.toNat - 1) * Config.stride d.width + i)

/-- The row just taken is the previous row of the next one (R129). -/
theorem RowTaken.betweenRows {sel : Byte} {d e : Df} {f : List Byte} {first : Bool} {above : Memory}
    (h : RowTaken sel d e) (hd : BetweenRows d) (hrow : d.row.toNat < d.height.toNat)
    (hdec : rowDecoded sel f (Config.stride d.width) first above e.cur) : BetweenRows e := by
  obtain ⟨hw, hh, -⟩ := h.kept
  obtain ⟨hpos, hcol⟩ := h.position
  have hnext : e.row.toNat = d.row.toNat + 1 := by rw [hpos, row_succ_toNat hrow]
  exact {
    width := hw ▸ hd.width
    state := by rw [h.state, hh, hnext]
    col := hcol
    prior := fun _ i hi => by
      rw [hw] at hi ⊢
      obtain ⟨n, -, -, -, hv⟩ := hdec i hi
      rw [hnext, Nat.add_sub_cancel, h.out_read hi, h.prior, if_pos hi]
      exact ⟨by rw [hv]; rfl, rfl⟩ }

/-- The decoded row solves the equations in the output: what it reads of PRIOR stands there too, below the row. -/
theorem RowTaken.rowSolves {sel : Byte} {d e : Df} {f : List Byte} (h : RowTaken sel d e) (hd : BetweenRows d)
    (hdec : rowDecoded sel f (Config.stride d.width) (decide (d.row = 0)) d.prior e.cur) :
    rowSolves e.out (Config.stride d.width) d.row.toNat sel f := by
  intro i hi
  have hzero : decide (d.row = 0) = decide (d.row.toNat = 0) := decide_eq_decide.2 (by bv_omega)
  have hprior : d.row.toNat ≠ 0 → ∀ j, j < Config.stride d.width →
      e.out.read ((d.row.toNat - 1) * Config.stride d.width + j) = d.prior.read j := fun hne j hj => by
    have hprev := prevRow_end hne (Config.stride d.width)
    rw [(hd.prior (by bv_omega) j hj).2]
    exact h.out _ (.inl (by omega))
  obtain ⟨n, hleft, habove, hcorner, hv⟩ := h.decoded_out hdec hi
  rw [hzero] at habove hcorner
  refine ⟨n, hleft, valueOr0_congr habove fun hb => hprior (by simpa using hb) i hi,
    valueOr0_congr hcorner fun hb => ?_, hv⟩
  obtain ⟨hne, h3⟩ : d.row.toNat ≠ 0 ∧ 3 ≤ i := by simpa using hb
  rw [Nat.add_sub_assoc h3]
  exact hprior hne (i - 3) (by omega)

theorem pushRow_betweenRows {sel : Byte} {f : List Byte} {d : Df} (hd : BetweenRows d)
    (hrow : d.row.toNat < d.height.toNat) (hsel : sel.toNat ≤ 4) (hf : f.length = Config.stride d.width) :
    ∃ e, dfPushAll (sel :: f) d = .next e ∧ RowTaken sel d e ∧ BetweenRows e ∧
      rowSolves e.out (Config.stride d.width) d.row.toNat sel f := by
  have hready : RowReady f d :=
    ⟨by rw [hd.state, if_pos hrow], hd.width, hf, fun hne i hi => (hd.prior hne i hi).1⟩
  obtain ⟨e, he, htaken, hdec⟩ := pushRow_taken hsel hready
  exact ⟨e, he, htaken, htaken.betweenRows hd hrow hdec, htaken.rowSolves hd hdec⟩

/-- The rows that remain, pushed: each solves its equations in the output, and nothing outside them is written. -/
theorem pushRows {rows : List (Byte × List Byte)} {d : Df} (hd : BetweenRows d)
    (hl : d.row.toNat + rows.length = d.height.toNat)
    (hrows : ∀ r ∈ rows, r.1.toNat ≤ 4 ∧ r.2.length = Config.stride d.width) :
    ∃ e, dfPushAll (programBytes rows) d = .next e ∧ BetweenRows e ∧ e.row = d.height ∧ e.height = d.height ∧
      e.errKind = d.errKind ∧
      (∀ k, k < rows.length → rowSolves e.out (Config.stride d.width) (d.row.toNat + k) (rows.getD k (0, [])).1
        (rows.getD k (0, [])).2) ∧
      ∀ a, a < d.row.toNat * Config.stride d.width ∨ d.height.toNat * Config.stride d.width ≤ a →
        e.out.read a = d.out.read a := by
  induction rows generalizing d with
  | nil => exact ⟨d, rfl, hd, BitVec.eq_of_toNat_eq hl, rfl, rfl, nofun, fun _ _ => rfl⟩
  | cons r rows ih =>
    obtain ⟨sel, f⟩ := r
    rw [List.length_cons] at hl
    have hrow : d.row.toNat < d.height.toNat := by omega
    obtain ⟨⟨hsel, hf⟩, hrest⟩ := List.forall_mem_cons.1 hrows
    obtain ⟨d', hd', htaken, hbetween, hsolves⟩ := pushRow_betweenRows hd hrow hsel hf
    obtain ⟨hw, hh, hkind, -⟩ := htaken.kept
    have hnext : d'.row.toNat = d.row.toNat + 1 := by rw [htaken.position.1, row_succ_toNat hrow]
    obtain ⟨e, he, hbetween', hrow', hh', hkind', hsolves', hout⟩ :=
      ih hbetween (by rw [hnext, hh]; omega) (by rwa [hw])
    rw [hh] at hrow' hh' hout
    rw [hw, hnext] at hsolves'
    rw [hw, hnext, Nat.succ_mul] at hout
    have hend := row_end_le hrow (Config.stride d.width)
    refine ⟨e, ?_, hbetween', hrow', hh', hkind'.trans hkind, fun k hk => ?_, fun a ha => ?_⟩
    · rw [programBytes, dfPushAll_append, hd', andThen_next, he]
    · cases k with
      | zero => exact rowSolves_congr hsolves fun a ha => hout a (.inl ha)
      | succ k =>
        rw [← Nat.succ_add_eq_add_succ]
        exact hsolves' k (by simpa using hk)
    · rw [hout a (by omega), htaken.out a (by omega)]

theorem dfStart_within {w h : Word} {d : Df} (hs : d.state = .idle) (hw : w ≠ 0) (hh : h ≠ 0)
    (hmaxw : w.toNat ≤ P.maxW.toNat) (hmaxh : h.toNat ≤ P.maxH.toNat) :
    dfStart P w h d = .next { d with width := w, height := h, row := 0, col := 0, state := .select } := by
  rw [dfStart, if_pos hs, if_neg (not_or.2 ⟨hw, hh⟩), if_neg (by omega)]

theorem deliver_dfEos_done {s : State} (hs : s.df.state = .done) : deliver P .dfEos s = .next s := by
  have heos : dfEos s.df = s.df := by simp only [dfEos, hs]
  rw [deliver, heos, State.withDf_self]

/-- Settles O34: DF.START leaves DF before row 0, and the rows are pushed one after the other. -/
theorem wholeImageClosedForm : Obligations.WholeImageClosedForm := by
  intro P s w h rows hw hh hmaxw hmaxh hl hrows
  have hbegin : BetweenRows { dfReset s.df with width := w, height := h, row := 0, col := 0, state := .select } :=
    { width := hw
      state := (if_pos (by bv_omega)).symm
      col := rfl
      prior := fun hne => absurd rfl hne }
  obtain ⟨e, he, hbetween, hrow, hheight, hkind, hsolves, hout⟩ := pushRows (rows := rows) hbegin (by simpa using hl) hrows
  have hdone : e.state = .done := by rw [hbetween.state, if_neg (by rw [hrow, hheight]; omega)]
  refine ⟨e, ?_, hdone, hrow, hbetween.col, hkind, fun y hy => ?_, fun a ha => hout a (.inr ha)⟩
  · rw [deliverAll, deliver, andThen_next, deliverAll, deliver, State.withDf_df, dfStart_within rfl hw hh hmaxw hmaxh]
    rw [onDf, andThen_next, andThen_next, deliverAll_append, deliverAll_dfPushes, State.withDf_df, he]
    rw [onDf, andThen_next, andThen_next, deliverAll, deliver_dfEos_done hdone]
    rfl
  · have hrowy : rowSolves e.out (Config.stride w) (0 + y) (rows.getD y (0, [])).1 (rows.getD y (0, [])).2 :=
      hsolves y (by omega)
    rw [Nat.zero_add] at hrowy
    exact hrowy

end Sys2Proof.Machine
end

section
/-! PROOFS of the family 41_integrity_check.md: the four phases of a block record (R165 to R168), the record as a whole (R169
to R171), and what the default CHECKSUM detects (R162, R163). The one idea: a record at the boundary ends in one of two states,
told apart by the checksum alone, and every step of the default CHECKSUM is injective. -/

namespace Sys2Proof.Machine

variable {P : Config.Params}

/-! ### One byte, one field -/

/-- Settles O49, by PHASE, and within a phase by what the step tests: CNT, the length, the stored checksum. -/
theorem blockPhaseSteps : Obligations.BlockPhaseSteps := by
  intro P x c
  refine ⟨fun hp hc => ?_, fun hp hc => ?_, fun hp hc => ?_, fun hp hc => ?_, fun hp => ?_, fun hp hc => ?_,
    fun hp hc hsum => ?_, fun hp hc hsum => ?_⟩
  · simp only [icPush, hp, lenStep, hc, if_true, shiftIn]
  · simp [icPush, hp, lenStep, hc, shiftIn]
  · simp only [icPush, hp, tagStep, hc, if_true]
  · have hempty : 0 < c.len.toNat ↔ ¬ c.len = 0 := by bv_omega
    simp [icPush, hp, tagStep, hc, tagSet, hempty]
  · simp only [icPush, hp, payloadStep]
  · simp only [icPush, hp, crcStep, hc, if_true, shiftIn]
  · simp [icPush, hp, crcStep, hc, hsum, shiftIn]
  · simp [icPush, hp, crcStep, hc, hsum, shiftIn, icRaise]

/-- Settles O50: phase LEN as a whole, its word in plain arithmetic. -/
theorem lengthAssembledBigEndian : Obligations.LengthAssembledBigEndian := by
  intro P b0 b1 b2 b3 c hp hc
  exact ⟨_, icPushAll_length P b0 b1 b2 b3 c hp hc, wordBE_toNat b0 b1 b2 b3, rfl, rfl, rfl, rfl, rfl, rfl, rfl, rfl⟩

/-! ### A whole record -/

/-- The first three bytes of a big-endian field, shifted into an empty register. -/
theorem shiftIn_three_of_zero (w : Word) :
    shiftIn (shiftIn (shiftIn 0 (w.extractLsb' 24 8)) (w.extractLsb' 16 8)) (w.extractLsb' 8 8) = w >>> 8 := by
  have hzero : shiftIn 0 0 = 0 := by decide
  have hw := w.isLt
  apply BitVec.eq_of_toNat_eq
  rw [← hzero, shiftIn_four, wordBE_toNat]
  simp only [BitVec.extractLsb'_toNat, BitVec.toNat_ushiftRight, Nat.shiftRight_eq_div_pow, BitVec.ofNat_eq_ofNat,
    BitVec.toNat_ofNat]
  omega

/-- A block record whose stored checksum is wrong ends in FAULT, without a verdict; the last byte's writes are dropped
(41_integrity_check.md R168, R171; 60_exceptions.md R222). -/
theorem icPushAll_badBlock {length : Word} {tag : Tag} {payload : List Byte} {crc : Word} {c : Ic} (hp : c.phase = .len)
    (hc : c.cnt = 0) (hl : payload.length = length.toNat) (hbad : checksum P.checksum (tagBytes tag ++ payload) ≠ crc) :
    icPushAll P (encode (.chkblk length tag payload crc)) c =
      ({ c with
        phase := .fault, cnt := 3, len := length, rem := 0, tag := tag,
        acc := absorb P.checksum P.checksum.init (tagBytes tag ++ payload), stored := crc >>> 8,
        errKind := .checksumMismatch, errTag := tag }, []) := by
  rw [checksum] at hbad
  rw [encode, icPushAll_append, icPushAll_beforeCrc hp hc hl]
  simp only [icPushAll_crc, if_neg hbad, shiftIn_three_of_zero, List.nil_append]

/-- CHKBLK at the record boundary with the right stored checksum: IC and the verdict, all else kept (R169, R170). -/
theorem execWith_chkblk_good {s : State} {length : Word} {tag : Tag} {payload : List Byte} {crc : Word}
    (hp : s.ic.phase = .len) (hc : s.ic.cnt = 0) (hl : payload.length = length.toNat)
    (hgood : checksum P.checksum (tagBytes tag ++ payload) = crc) :
    execWith P (.chkblk length tag payload crc) s =
      .next ((s.withIc { s.ic with
        phase := .len, cnt := 0, len := length, rem := 0, tag := tag,
        acc := absorb P.checksum P.checksum.init (tagBytes tag ++ payload), stored := crc }).emit ⟨tag, length⟩) := by
  subst hgood
  refine (execWith_pushes _ _).trans ((deliverAll_icPushes _ _).trans ?_)
  rw [icPushAll_goodBlock hp hc hl]
  rfl

/-- CHKBLK at the record boundary with a wrong stored checksum: IC, all else kept (R169, R171). -/
theorem execWith_chkblk_bad {s : State} {length : Word} {tag : Tag} {payload : List Byte} {crc : Word}
    (hp : s.ic.phase = .len) (hc : s.ic.cnt = 0) (hl : payload.length = length.toNat)
    (hbad : checksum P.checksum (tagBytes tag ++ payload) ≠ crc) :
    execWith P (.chkblk length tag payload crc) s =
      .next (s.withIc { s.ic with
        phase := .fault, cnt := 3, len := length, rem := 0, tag := tag,
        acc := absorb P.checksum P.checksum.init (tagBytes tag ++ payload), stored := crc >>> 8,
        errKind := .checksumMismatch, errTag := tag }) := by
  refine (execWith_pushes _ _).trans ((deliverAll_icPushes _ _).trans ?_)
  rw [icPushAll_badBlock hp hc hl hbad, List.append_nil]
  rfl

/-- Settles O52, by whether the stored checksum is right. -/
theorem blockCheckForEveryChecksum : Obligations.BlockCheckForEveryChecksum := by
  intro P length tag payload crc s hp hc hl
  exact ⟨fun hgood => ⟨_, execWith_chkblk_good hp hc hl hgood, rfl, rfl, rfl, rfl, rfl, rfl⟩,
    fun hbad => ⟨_, execWith_chkblk_bad hp hc hl hbad, rfl, rfl, rfl, rfl, rfl⟩⟩

/-- Settles O53, by whether the stored checksum is right. -/
theorem chkblkChecksRecord : Obligations.ChkblkChecksRecord := by
  intro s length tag payload crc hp hc hl
  rw [exec_eq_execWith]
  by_cases hsum : checksum crc32 (tagBytes tag ++ payload) = crc
  · exact ⟨_, execWith_chkblk_good hp hc hl hsum, rfl, rfl, rfl, rfl, rfl, rfl, rfl, rfl,
      fun _ => ⟨rfl, rfl, rfl, rfl, rfl, rfl⟩, fun hbad => absurd hsum hbad⟩
  · have hstored : (crc >>> 8).toNat = crc.toNat / 256 := by
      rw [BitVec.toNat_ushiftRight, Nat.shiftRight_eq_div_pow]
    exact ⟨_, execWith_chkblk_bad hp hc hl hsum, rfl, rfl, rfl, rfl, rfl, rfl, rfl, rfl,
      fun hgood => absurd hgood hsum, fun _ => ⟨rfl, rfl, hstored, rfl, rfl, rfl⟩⟩

/-! ### What the default CHECKSUM detects -/

/-- The reflected polynomial has its highest bit, so the bit that a shift drops stands in the result's highest bit. -/
theorem crcShift_msb (acc : Word) : (crcShift acc).msb = acc.getLsbD 0 := by
  have hpoly : (0xEDB88320 : Word).msb = true := by decide
  unfold crcShift
  split
  next h => rw [BitVec.msb_xor, hpoly, h]; simp
  next h => rw [eq_false_of_ne_true h]; simp

/-- The dropped bit known, the other bits are only moved. -/
theorem crcShift_injective : Function.Injective crcShift := by
  intro a b h
  have hlow : a.getLsbD 0 = b.getLsbD 0 := by rw [← crcShift_msb, ← crcShift_msb, h]
  have hhigh : a >>> 1 = b >>> 1 := by
    unfold crcShift at h
    rw [hlow] at h
    split at h
    · exact (BitVec.xor_left_inj _).1 h
    · exact h
  apply BitVec.eq_of_getLsbD_eq
  rintro (_ | i) -
  · exact hlow
  · simpa [Nat.add_comm] using congrArg (·.getLsbD i) hhigh

theorem crcShifts_injective (n : Nat) : Function.Injective (crcShifts n) := by
  induction n with
  | zero => exact fun _ _ h => h
  | succ n ih => exact ih.comp crcShift_injective

theorem crcUpdate_injective_acc (x : Byte) : Function.Injective (crcUpdate · x) := fun _ _ h =>
  (BitVec.xor_left_inj _).1 (crcShifts_injective 8 h)

theorem crcUpdate_injective_byte (acc : Word) : Function.Injective (crcUpdate acc) := fun x y h => by
  have hext : x.zeroExtend 32 = y.zeroExtend 32 := (BitVec.xor_right_inj _).1 (crcShifts_injective 8 h)
  bv_omega

theorem absorb_crc32_injective (m : List Byte) : Function.Injective (absorb crc32 · m) := by
  induction m with
  | nil => exact fun _ _ h => h
  | cons x m ih => exact ih.comp (crcUpdate_injective_acc x)

theorem crcFinal_injective : Function.Injective crcFinal := fun _ _ h => (BitVec.xor_left_inj _).1 h

/-- Settles O56: the accumulators differ after the differing byte, and stay so over the suffix and the final inversion. -/
theorem checksumSeparatesSingleByte : Obligations.ChecksumSeparatesSingleByte := by
  intro before after x y hne hsum
  have habsorb : absorb crc32 crc32.init (before ++ x :: after) = absorb crc32 crc32.init (before ++ y :: after) :=
    crcFinal_injective hsum
  rw [absorb_append, absorb_append] at habsorb
  exact hne (crcUpdate_injective_byte _ (absorb_crc32_injective after habsorb))

/-- Settles O55: the stored checksum is that of another message, one byte apart (O56). -/
theorem corruptedPayloadDetected : Obligations.CorruptedPayloadDetected := by
  intro s length tag before after good bad hp hc hl hne
  have hlen : (before ++ bad :: after).length = length.toNat := by simpa using hl
  have hsum : checksum crc32 (tagBytes tag ++ (before ++ bad :: after)) ≠
      checksum crc32 (tagBytes tag ++ (before ++ good :: after)) := by
    rw [← List.append_assoc, ← List.append_assoc]
    exact checksumSeparatesSingleByte (tagBytes tag ++ before) after bad good hne
  rw [exec_eq_execWith]
  exact ⟨_, execWith_chkblk_bad hp hc hlen hsum, rfl, rfl, rfl, rfl⟩

end Sys2Proof.Machine
end

section
/-! PROOFS of the family 42_host_operations.md: what each token does in and outside its legal states (R191 to R201), that a
unit under its invariant always answers (R202), and that the units are independent (R203). Two ideas: only DF.START beyond a
limit stops, since a data step finds every entry its mux reads; and what a unit shows is changed by its own tokens alone, which
see nothing else. -/

namespace Sys2Proof.Machine

variable {P : Config.Params}

/-! ### DF.START -/

theorem onDf_next {o : Result Df} {d : Df} (h : o = .next d) (s : State) : onDf o s = .next (s.withDf d) := by
  rw [h]; rfl

theorem dfStart_zero {w h : Word} {d : Df} (hs : d.state = .idle) (hz : w = 0 ∨ h = 0) :
    dfStart P w h d = .next (dfRaise .invalidDimensions 0 0 d) := by
  rw [dfStart, if_pos hs, if_pos hz]

theorem dfStart_beyond {w h : Word} {d : Df} (hs : d.state = .idle) (hw : w ≠ 0) (hh : h ≠ 0)
    (hmax : P.maxW.toNat < w.toNat ∨ P.maxH.toNat < h.toNat) :
    dfStart P w h d = .refused (.dimensionsBeyondLimits w h) := by
  rw [dfStart, if_pos hs, if_neg (not_or.2 ⟨hw, hh⟩), if_pos hmax]

theorem dfStart_notIdle {d : Df} (hs : d.state ≠ .idle) (w h : Word) : dfStart P w h d = .next d := if_neg hs

/-- The token's one stop is the refusal (42_host_operations.md R192). -/
theorem dfStart_total (P : Config.Params) (w h : Word) (d : Df) :
    (∃ e, dfStart P w h d = .next e) ∨
      (d.state = .idle ∧ (P.maxW.toNat < w.toNat ∨ P.maxH.toNat < h.toNat) ∧
        dfStart P w h d = .refused (.dimensionsBeyondLimits w h)) := by
  by_cases hs : d.state = .idle
  · by_cases hz : w = 0 ∨ h = 0
    · exact .inl ⟨_, dfStart_zero hs hz⟩
    obtain ⟨hw, hh⟩ := not_or.1 hz
    by_cases hmax : P.maxW.toNat < w.toNat ∨ P.maxH.toNat < h.toNat
    · exact .inr ⟨hs, hmax, dfStart_beyond hs hw hh hmax⟩
    · exact .inl ⟨_, dfStart_within hs hw hh (by omega) (by omega)⟩
  · exact .inl ⟨d, dfStart_notIdle hs w h⟩

/-- At the default limits "the refusal arm is empty" (42_host_operations.md R192). -/
theorem not_beyond_params (w h : Word) : ¬ (params.maxW.toNat < w.toNat ∨ params.maxH.toNat < h.toNat) := by
  have hlimits : params.maxW.toNat = 2 ^ 32 - 1 ∧ params.maxH.toNat = 2 ^ 32 - 1 := ⟨rfl, rfl⟩
  omega

/-- Settles O13, by the token's tests in their order. -/
theorem startByCases : Obligations.StartByCases := by
  refine ⟨fun P w h s hs => ⟨fun hz => onDf_next (dfStart_zero hs hz) s, fun hw hh hmax => ?_,
    fun hw hh hmaxw hmaxh => onDf_next (dfStart_within hs hw hh hmaxw hmaxh) s⟩,
    fun P w h s hs => onDf_next (dfStart_notIdle hs w h) s, fun w h s => ?_⟩
  · rw [deliver, dfStart_beyond hs hw hh hmax]; rfl
  · obtain ⟨d, hd⟩ | ⟨-, hmax, -⟩ := dfStart_total params w h s.df
    · exact ⟨d, onDf_next hd s⟩
    · exact absurd hmax (not_beyond_params w h)

/-! ### DF.PUSH and DF.EOS outside a run -/

theorem dfPush_outsideRun {d : Df} (hsel : d.state ≠ .select) (hdata : d.state ≠ .data) (b : Byte) :
    dfPush b d = .next d := by
  cases hs : d.state with
  | select => exact absurd hs hsel
  | data => exact absurd hs hdata
  | idle | done | fault => simp only [dfPush, hs]

theorem dfPushAll_outsideRun {d : Df} (hsel : d.state ≠ .select) (hdata : d.state ≠ .data) (bs : List Byte) :
    dfPushAll bs d = .next d := by
  induction bs with
  | nil => rfl
  | cons b bs ih => rw [dfPushAll, dfPush_outsideRun hsel hdata, andThen_next, ih]

/-- Settles O28: a row record is pushes of its bytes into DF, each of them ignored. -/
theorem rowRecordsIgnoredOutsideRun : Obligations.RowRecordsIgnoredOutsideRun := by
  intro s i hu hsel hdata
  rw [exec_df hu]
  exact onDf_next (dfPushAll_outsideRun hsel hdata _) s

theorem dfEos_inRun {d : Df} (hs : d.state = .select ∨ d.state = .data) : dfEos d = dfRaise .truncatedInput 0 0 d := by
  rcases hs with hs | hs <;> simp only [dfEos, hs]

theorem deliver_dfEos_outsideRun {s : State} (hsel : s.df.state ≠ .select) (hdata : s.df.state ≠ .data) :
    deliver P .dfEos s = .next s := by
  have heos : dfEos s.df = s.df := by
    cases hs : s.df.state with
    | select => exact absurd hs hsel
    | data => exact absurd hs hdata
    | idle | done | fault => simp only [dfEos, hs]
  rw [deliver, heos, State.withDf_self]

/-- Settles O43, by whether DF is in SELECT or DATA. -/
theorem dfEosByState : Obligations.DfEosByState := by
  refine fun P s => ⟨fun hs => ?_, fun hs => ?_⟩
  · rw [deliver, dfEos_inRun hs]; rfl
  · have hnotRun : s.df.state ≠ .select ∧ s.df.state ≠ .data := by rcases hs with hs | hs | hs <;> simp [hs]
    exact deliver_dfEos_outsideRun hnotRun.1 hnotRun.2

/-! ### IC.EOS and IC.PUSH -/

theorem midRecord_iff (c : Ic) : midRecord c = true ↔ c.phase ≠ .fault ∧ ¬ (c.phase = .len ∧ c.cnt = 0) := by
  simp [midRecord, icFault, atBoundary, imp_iff_not_or]

theorem deliver_icEos_notMidRecord {s : State} (h : ¬ midRecord s.ic = true) : deliver P .icEos s = .next s := by
  rw [deliver, icEos, if_neg h, State.withIc_self]

/-- Settles O44: MIDRECORD is what the token tests. -/
theorem icEosByPhase : Obligations.IcEosByPhase := by
  refine fun P s => ⟨fun h => deliver_icEos_notMidRecord fun hmid => ?_, fun hf hb => ?_⟩
  · obtain ⟨hf, hb⟩ := (midRecord_iff s.ic).1 hmid
    exact h.elim hf hb
  · rw [deliver, icEos, if_pos ((midRecord_iff s.ic).2 ⟨hf, hb⟩)]; rfl

theorem icPush_fault {c : Ic} (hc : c.phase = .fault) (x : Byte) : icPush P x c = (c, none) := by
  simp only [icPush, hc]

/-! ### Block records -/

theorem execWith_ic {i : Instr} (h : i.unit = .ic) (s : State) :
    execWith P i s = .next { s with
      ic := (icPushAll P (encode i) s.ic).1
      host := { s.host with verdicts := s.host.verdicts ++ (icPushAll P (encode i) s.ic).2 } } := by
  rw [execWith_pushes, h, deliverAll_icPushes]

/-- Settles O54: a block record is pushes into IC, each of which answers and reaches the verdicts alone. -/
theorem chkblkFrame : Obligations.ChkblkFrame := by
  intro s length tag payload crc
  rw [exec_eq_execWith, execWith_ic rfl]
  exact ⟨_, rfl, rfl, rfl, rfl, rfl, _, rfl⟩

/-! ### The reads -/

/-- In DONE the output is written up to the position, which is the end of the image (10_state.md R34 c). -/
theorem DfInv.outputUsable {d : Df} (h : DfInv d) (hs : d.state = .done) : outputUsable d := by
  obtain ⟨hrow, hcol⟩ := h.done hs
  have haddr : outAddress d = d.height.toNat * Config.stride d.width := by rw [outAddress, hrow, hcol]; rfl
  exact ⟨hs, haddr ▸ h.outWritten (.inr (.inr hs))⟩

theorem readOut_written {a : Nat} {s : State} {v : Byte}
    (h : s.df.state = .done ∧ a < s.df.height.toNat * Config.stride s.df.width) (hv : s.df.out.read a = some v) :
    readOut a s = s.reply (.outByte a v) := by
  simp only [readOut, if_pos h, hv]

/-- Settles O59: the image is complete in DONE; anywhere else the read draws a free value. -/
theorem readOutReturnsImage : Obligations.ReadOutReturnsImage := by
  refine fun P s a h => ⟨fun hs ha => ?_, fun hout => ⟨_, by rw [deliver, readOut, if_neg hout]⟩⟩
  obtain ⟨v, hv⟩ := Option.isSome_iff_exists.1 ((h.outputUsable hs).2 a ha)
  exact ⟨v, hv, by rw [deliver, readOut_written ⟨hs, ha⟩ hv]⟩

theorem dfBusy_eq (d : Df) : dfBusy d = decide (d.state = .select ∨ d.state = .data) := (Bool.decide_or _ _).symm

theorem midRecord_eq (c : Ic) : midRecord c = decide (c.phase ≠ .fault ∧ ¬ (c.phase = .len ∧ c.cnt = 0)) :=
  Bool.eq_iff_iff.2 ((midRecord_iff c).trans decide_eq_true_iff.symm)

/-- Settles O58: the flags BUSY and MIDRECORD are these tests; the other values are the registers themselves. -/
theorem statusReadsChangeNothing : Obligations.StatusReadsChangeNothing := by
  refine fun P s => ⟨?_, ?_⟩
  · rw [← dfBusy_eq]; rfl
  · rw [← midRecord_eq]; rfl

/-! ### Tokens outside their legal states -/

/-- Settles O14, token by token. -/
theorem illegalTokensIgnored : Obligations.IllegalTokensIgnored := by
  refine fun P s => ⟨fun hs w h => onDf_next (dfStart_notIdle hs w h) s,
    fun hsel hdata b => onDf_next (dfPush_outsideRun hsel hdata b) s, deliver_dfEos_outsideRun, fun hf x => ?_,
    fun hf => deliver_icEos_notMidRecord fun hmid => ?_, fun _ a => ⟨_, rfl, readOut_df a s, readOut_ic a s⟩⟩
  · rw [deliver, icPush_fault hf]; rfl
  · exact ((midRecord_iff s.ic).1 hmid).1 hf

/-! ### The resets -/

/-- Settles O10: DF.RESET is the reset state with the output kept. -/
theorem dfResetInEveryState : Obligations.DfResetInEveryState :=
  fun _ s => ⟨dfReset s.df, rfl, rfl, rfl, rfl, rfl, rfl, rfl, rfl, rfl, rfl, rfl, fun _ => ⟨rfl, rfl⟩⟩

/-- Settles O11: IC.RESET is IC's reset state, whatever IC was. -/
theorem icResetInEveryState : Obligations.IcResetInEveryState := ⟨fun _ _ => rfl, rfl⟩

/-! ### A unit under its invariant answers -/

theorem DfInv.dfPushAll_total {d : Df} (h : DfInv d) (bs : List Byte) : ∃ e, dfPushAll bs d = .next e := by
  induction bs generalizing d with
  | nil => exact ⟨d, rfl⟩
  | cons b bs ih =>
    obtain ⟨d', hd'⟩ := h.dfPush_total b
    obtain ⟨e, he⟩ := ih (h.dfPush hd')
    exact ⟨e, andThen_eq_next.2 ⟨d', hd', he⟩⟩

theorem DfInv.execWith_total {s : State} (h : DfInv s.df) (i : Instr) : ∃ u, execWith P i s = .next u := by
  cases hu : i.unit with
  | df =>
    obtain ⟨e, he⟩ := h.dfPushAll_total (encode i)
    exact ⟨_, (execWith_df hu s).trans (onDf_next he s)⟩
  | ic => exact ⟨_, execWith_ic hu s⟩

theorem DfInv.deliver_total {s : State} (h : DfInv s.df) (t : Token) :
    (∃ u, Machine.deliver P t s = .next u) ∨
      ∃ w v, t = .dfStart w v ∧ s.df.state = .idle ∧ (P.maxW.toNat < w.toNat ∨ P.maxH.toNat < v.toNat) ∧
        Machine.deliver P t s = .refused (.dimensionsBeyondLimits w v) := by
  cases t with
  | dfStart w v =>
    obtain ⟨e, he⟩ | ⟨hs, hmax, hr⟩ := dfStart_total P w v s.df
    · exact .inl ⟨_, onDf_next he s⟩
    · exact .inr ⟨w, v, rfl, hs, hmax, by rw [Machine.deliver, hr]; rfl⟩
  | dfPush b =>
    obtain ⟨e, he⟩ := h.dfPush_total b
    exact .inl ⟨_, onDf_next he s⟩
  | dfReset | dfEos | dfReadStatus | dfReadOut | icReset | icPush | icEos | icReadStatus => exact .inl ⟨_, rfl⟩

/-- A step is a record, which answers, or a token, which answers unless it is a DF.START beyond a limit. -/
theorem DfInv.stepWith_total {s : State} (h : DfInv s.df) (hp : s.host.pending ≠ []) :
    (∃ t, stepWith P s = .next t) ∨
      ∃ w v rest, s.host.pending = .dfStart w v :: rest ∧ s.df.state = .idle ∧
        (P.maxW.toNat < w.toNat ∨ P.maxH.toNat < v.toNat) ∧
        stepWith P s = .refused (.dimensionsBeyondLimits w v) := by
  have hpend := fetch_tokens s
  unfold stepWith runFetched
  cases hf : fetch s with
  | nothing =>
    rw [hf] at hpend
    exact absurd hpend.symm hp
  | token t rest =>
    rw [hf] at hpend
    obtain hnext | ⟨w, v, rfl, hs, hmax, hr⟩ := DfInv.deliver_total (P := P) (s := s.withPending rest) h t
    · exact .inl hnext
    · exact .inr ⟨w, v, rest, hpend.symm, hs, hmax, hr⟩
  | record i rest => exact .inl (DfInv.execWith_total (s := s.withPending rest) h i)

/-- Settles O40: for any parameters the refused DF.START is the one stop, and the default limits refuse none. -/
theorem stepNeverStopsWithToken : Obligations.StepNeverStopsWithToken := by
  refine fun s h hp => ⟨?_, fun P => h.1.stepWith_total hp⟩
  rw [step_eq_stepWith]
  obtain hnext | ⟨w, v, -, -, -, hmax, -⟩ := h.1.stepWith_total (P := params) hp
  · exact hnext
  · exact absurd hmax (not_beyond_params w v)

/-! ### The units are independent -/

/-- A part of the machine that belongs to the tokens `own`: no other token changes it, and what one of them makes of it depends
on what it holds alone. -/
structure OwnPart {α : Type} (P : Config.Params) (own : Token → Bool) (part : State → α) : Prop where
  frame : ∀ {t s u}, deliver P t s = .next u → own t = false → part u = part s
  congr : ∀ {t s s' u}, own t = true → part s' = part s → deliver P t s = .next u →
    ∃ u', deliver P t s' = .next u' ∧ part u' = part u

/-- The tokens of others can be left out of a sequence. -/
theorem OwnPart.deliverAll_filter {α : Type} {own : Token → Bool} {part : State → α} (h : OwnPart P own part)
    {ts : List Token} {s s' u : State} (hs : part s' = part s) (hu : deliverAll P ts s = .next u) :
    ∃ u', deliverAll P (ts.filter own) s' = .next u' ∧ part u' = part u := by
  induction ts generalizing s s' with
  | nil => cases hu; exact ⟨s', rfl, hs⟩
  | cons t ts ih =>
    obtain ⟨v, hv, hu⟩ := andThen_eq_next.1 hu
    cases hown : own t with
    | false =>
      rw [List.filter_cons_of_neg (by simp [hown])]
      exact ih (hs.trans (h.frame hv hown).symm) hu
    | true =>
      obtain ⟨v', hv', hpart⟩ := h.congr hown hs hv
      obtain ⟨u', hu', hpart'⟩ := ih hpart hu
      rw [List.filter_cons_of_pos hown]
      exact ⟨u', andThen_eq_next.2 ⟨v', hv', hu'⟩, hpart'⟩

theorem df_ownPart : OwnPart P Token.isDf State.df where
  frame h ht := (deliver_ic_frame h ht).1
  congr {t s s' u} ht hs h := by
    have honDf : ∀ {o : Result Df}, onDf o s = .next u → ∃ u', onDf o s' = .next u' ∧ u'.df = u.df := fun ho => by
      obtain ⟨d, hd, hu⟩ := andThen_eq_next.1 ho
      cases hu
      exact ⟨_, onDf_next hd s', rfl⟩
    cases t with
    | dfStart w v => rw [deliver, hs]; exact honDf h
    | dfPush b => rw [deliver, hs]; exact honDf h
    | dfReset | dfEos => cases h; exact ⟨_, rfl, by simp [hs]⟩
    | dfReadStatus => cases h; exact ⟨_, rfl, hs⟩
    | dfReadOut a => cases h; exact ⟨_, rfl, by simp [hs]⟩
    | icReset | icPush | icEos | icReadStatus => cases ht

/-- What unit IC shows: its registers, and the verdicts it has emitted (41_integrity_check.md R170). -/
def icPart (s : State) : Ic × List Verdict := (s.ic, s.host.verdicts)

theorem icPart_onIc (r : Ic × Option Verdict) (s : State) :
    icPart (onIc r s) = (r.1, s.host.verdicts ++ r.2.toList) := by
  obtain ⟨c, _ | v⟩ := r <;> simp [icPart, onIc]

theorem ic_ownPart : OwnPart P (fun t => !t.isDf) icPart where
  frame h ht := by
    obtain ⟨hic, hverdicts, -⟩ := deliver_df_frame h (by simpa using ht)
    rw [icPart, hic, hverdicts, icPart]
  congr {t s s' u} ht hs h := by
    obtain ⟨hic, hverdicts⟩ := Prod.mk.inj hs
    cases t with
    | icReset => cases h; exact ⟨_, rfl, by simp [icPart, icReset, hverdicts]⟩
    | icPush x => cases h; exact ⟨_, rfl, by rw [icPart_onIc, icPart_onIc, hic, hverdicts]⟩
    | icEos => cases h; exact ⟨_, rfl, by simp [icPart, hic, hverdicts]⟩
    | icReadStatus => cases h; exact ⟨_, rfl, hs⟩
    | dfReset | dfStart | dfPush | dfEos | dfReadStatus | dfReadOut => cases ht

/-- Settles O48: each unit's part belongs to its own tokens. -/
theorem interleavingIrrelevant : Obligations.InterleavingIrrelevant := by
  refine ⟨fun P s u t h => ⟨fun ht => ?_, fun ht => (deliver_ic_frame h ht).1⟩, fun P ts s t h => ⟨?_, ?_⟩⟩
  · obtain ⟨hic, hverdicts, -⟩ := deliver_df_frame h ht
    exact ⟨hic, hverdicts⟩
  · exact df_ownPart.deliverAll_filter rfl h
  · obtain ⟨u, hu, hpart⟩ := ic_ownPart.deliverAll_filter rfl h
    obtain ⟨hic, hverdicts⟩ := Prod.mk.inj hpart
    exact ⟨u, hu, hic, hverdicts⟩

end Sys2Proof.Machine
end

section
/-! PROOFS of the family 60_exceptions.md: a fault is precise (R222), each cause has its token and its state (R225), and FAULT
is sticky (R224). The one idea: a token that takes a unit into FAULT does one raise in that unit and nothing else, and a unit
in FAULT ignores every token but its reset. -/

namespace Sys2Proof.Machine

variable {P : Config.Params}

/-! ### What raises, and with which record -/

/-- The tokens at which DF raises, with the state that lets them and the record they leave (60_exceptions.md R215, R225). -/
inductive DfRaises (d : Df) : Token → ErrKind → Word → Byte → Prop
  | selector {b : Byte} (hs : d.state = .select) (hb : 4 < b.toNat) :
      DfRaises d (.dfPush b) .invalidFilterSelector d.row b
  | endOfStream (hs : d.state = .select ∨ d.state = .data) : DfRaises d .dfEos .truncatedInput 0 0
  | dimensions {w h : Word} (hs : d.state = .idle) (hz : w = 0 ∨ h = 0) :
      DfRaises d (.dfStart w h) .invalidDimensions 0 0

/-- The tokens at which IC raises, with the state that lets them and the record they leave (60_exceptions.md R215, R225). -/
inductive IcRaises (c : Ic) : Token → ErrKind → Tag → Prop
  | mismatch {x : Byte} (hp : c.phase = .crc) : IcRaises c (.icPush x) .checksumMismatch c.tag
  | endOfStream (hm : midRecord c = true) : IcRaises c .icEos .truncatedInput zeroTag

/-! ### DF enters FAULT -/

theorem storeByte_not_fault {r : Byte} {d : Df} (hs : d.state ≠ .fault) : (storeByte r d).state ≠ .fault := by
  by_cases hmid : d.col.toNat + 1 < Config.stride d.width
  · rw [storeByte_mid hmid]; exact hs
  · rw [storeByte_last hmid]; dsimp only; split <;> nofun

theorem dfStart_enters_fault {w h : Word} {d e : Df} (hd : dfStart P w h d = .next e) (hs : d.state ≠ .fault)
    (he : e.state = .fault) : d.state = .idle ∧ (w = 0 ∨ h = 0) ∧ e = dfRaise .invalidDimensions 0 0 d := by
  obtain ⟨-, rfl⟩ | hraise | ⟨-, -, -, rfl⟩ := dfStart_cases hd
  · exact absurd he hs
  · exact hraise
  · cases he

theorem dfPush_enters_fault {b : Byte} {d e : Df} (hd : dfPush b d = .next e) (hs : d.state ≠ .fault)
    (he : e.state = .fault) : d.state = .select ∧ 4 < b.toNat ∧ e = dfRaise .invalidFilterSelector d.row b d := by
  obtain ⟨hsel, rfl⟩ | ⟨-, n, p, -, -, rfl⟩ | ⟨-, rfl⟩ := dfPush_cases hd
  · by_cases hb : b.toNat ≤ 4
    · rw [selectorStep_legal hb] at he
      cases he
    · exact ⟨hsel, by omega, selectorStep_illegal (decide_eq_false hb) d⟩
  · exact absurd he (storeByte_not_fault hs)
  · exact absurd he hs

theorem dfEos_enters_fault {d : Df} (hs : d.state ≠ .fault) (he : (dfEos d).state = .fault) :
    d.state = .select ∨ d.state = .data := by
  cases h : d.state with
  | select => exact .inl rfl
  | data => exact .inr rfl
  | fault => exact absurd h hs
  | idle | done => simp [dfEos, h] at he

/-- A token that takes DF into FAULT is one of the causes, and its one effect on the machine is that raise. -/
theorem deliver_enters_dfFault {t : Token} {s u : State} (h : deliver P t s = .next u) (hs : s.df.state ≠ .fault)
    (hu : u.df.state = .fault) :
    ∃ k row value, DfRaises s.df t k row value ∧ u = s.withDf (dfRaise k row value s.df) := by
  have kept : u.df ≠ s.df := fun heq => hs (heq ▸ hu)
  cases t with
  | dfStart w v =>
    obtain ⟨e, he, hnext⟩ := andThen_eq_next.1 h
    cases hnext
    obtain ⟨hidle, hz, rfl⟩ := dfStart_enters_fault he hs hu
    exact ⟨_, _, _, .dimensions hidle hz, rfl⟩
  | dfPush b =>
    obtain ⟨e, he, hnext⟩ := andThen_eq_next.1 h
    cases hnext
    obtain ⟨hsel, hb, rfl⟩ := dfPush_enters_fault he hs hu
    exact ⟨_, _, _, .selector hsel hb, rfl⟩
  | dfEos =>
    cases h
    have hrun := dfEos_enters_fault hs hu
    exact ⟨_, _, _, .endOfStream hrun, by rw [dfEos_inRun hrun]⟩
  | dfReset => cases h; cases hu
  | dfReadStatus => cases h; exact absurd rfl kept
  | dfReadOut a => cases h; exact absurd (readOut_df a s) kept
  | icReset | icPush | icEos | icReadStatus => exact absurd (deliver_ic_frame h rfl).1 kept

/-! ### IC enters FAULT -/

theorem lenStep_not_fault {c : Ic} (hp : c.phase ≠ .fault) (x : Byte) : (lenStep P x c).phase ≠ .fault := by
  unfold lenStep; dsimp only; split
  · exact hp
  · nofun

theorem tagStep_not_fault {c : Ic} (hp : c.phase ≠ .fault) (x : Byte) : (tagStep P x c).phase ≠ .fault := by
  unfold tagStep; dsimp only; split
  · exact hp
  · dsimp only; split <;> nofun

theorem payloadStep_not_fault (x : Byte) (c : Ic) : (payloadStep P x c).phase ≠ .fault := by
  simp only [payloadStep]; split <;> nofun

/-- The last byte of phase CRC raises where the checksums differ, and then without a verdict (41_integrity_check.md R171). -/
theorem crcStep_enters_fault {x : Byte} {c : Ic} (hp : c.phase ≠ .fault) (he : (crcStep P x c).1.phase = .fault) :
    crcStep P x c = (icRaise .checksumMismatch c.tag c, none) := by
  unfold crcStep at he ⊢
  dsimp only at he ⊢
  split_ifs at he ⊢
  · exact absurd he hp
  · rfl

theorem icPush_enters_fault {x : Byte} {c : Ic} (hp : c.phase ≠ .fault) (he : (icPush P x c).1.phase = .fault) :
    c.phase = .crc ∧ icPush P x c = (icRaise .checksumMismatch c.tag c, none) := by
  cases h : c.phase <;> simp only [icPush, h, true_and] at he ⊢
  case len => exact absurd he (lenStep_not_fault hp x)
  case tag => exact absurd he (tagStep_not_fault hp x)
  case payload => exact absurd he (payloadStep_not_fault x c)
  case crc => exact crcStep_enters_fault hp he
  case fault => exact absurd h hp

/-- A token that takes IC into FAULT is one of the causes, and its one effect on the machine is that raise. -/
theorem deliver_enters_icFault {t : Token} {s u : State} (h : deliver P t s = .next u) (hs : s.ic.phase ≠ .fault)
    (hu : u.ic.phase = .fault) : ∃ k tag, IcRaises s.ic t k tag ∧ u = s.withIc (icRaise k tag s.ic) := by
  have kept : u.ic ≠ s.ic := fun heq => hs (heq ▸ hu)
  cases t with
  | icPush x =>
    cases h
    rw [onIc_ic] at hu
    obtain ⟨hcrc, hpush⟩ := icPush_enters_fault hs hu
    exact ⟨_, _, .mismatch hcrc, by rw [hpush]; rfl⟩
  | icEos =>
    by_cases hmid : midRecord s.ic = true
    · cases h
      exact ⟨_, _, .endOfStream hmid, by rw [icEos, if_pos hmid]⟩
    · rw [deliver_icEos_notMidRecord hmid] at h
      cases h
      exact absurd rfl kept
  | icReset => cases h; cases hu
  | icReadStatus => cases h; exact absurd rfl kept
  | dfReset | dfStart | dfPush | dfEos | dfReadStatus | dfReadOut => exact absurd (deliver_df_frame h rfl).1 kept

/-- Settles O45: the token's one effect is the unit's raise, which writes the phase and the error record. -/
theorem faultsArePrecise : Obligations.FaultsArePrecise := by
  refine fun P s u t h => ⟨fun hs hu => ?_, fun hs hu => ?_⟩
  · obtain ⟨k, row, value, -, rfl⟩ := deliver_enters_dfFault h hs hu
    exact ⟨rfl, rfl, rfl⟩
  · obtain ⟨k, tag, -, rfl⟩ := deliver_enters_icFault h hs hu
    exact ⟨rfl, rfl, rfl⟩

/-- Settles O46, cause by cause. -/
theorem oneCausePerToken : Obligations.OneCausePerToken := by
  refine fun P s u t h => ⟨fun hs hu => ?_, fun hs hu => ?_⟩
  · obtain ⟨k, row, value, hcause, rfl⟩ := deliver_enters_dfFault h hs hu
    cases hcause with
    | selector hsel hb => exact .inl ⟨_, rfl, hsel, hb, rfl, rfl, rfl⟩
    | endOfStream hrun => exact .inr (.inl ⟨rfl, hrun, rfl⟩)
    | dimensions hidle hz => exact .inr (.inr ⟨_, _, rfl, hidle, hz, rfl⟩)
  · obtain ⟨k, tag, hcause, rfl⟩ := deliver_enters_icFault h hs hu
    cases hcause with
    | mismatch hcrc => exact .inl ⟨_, rfl, hcrc, rfl, rfl⟩
    | endOfStream hmid => exact .inr ⟨rfl, hmid, rfl⟩

/-! ### A unit in FAULT -/

theorem deliver_in_dfFault {t : Token} {s : State} (hs : s.df.state = .fault) (ht : t ≠ .dfReset) :
    ∃ u, deliver P t s = .next u ∧ u.df = s.df := by
  have hsel : s.df.state ≠ .select := by simp [hs]
  have hdata : s.df.state ≠ .data := by simp [hs]
  cases t with
  | dfReset => exact absurd rfl ht
  | dfStart w h => exact ⟨_, onDf_next (dfStart_notIdle (by simp [hs]) w h) s, rfl⟩
  | dfPush b => exact ⟨_, onDf_next (dfPush_outsideRun hsel hdata b) s, rfl⟩
  | dfEos => exact ⟨s, deliver_dfEos_outsideRun hsel hdata, rfl⟩
  | dfReadOut a => exact ⟨_, rfl, readOut_df a s⟩
  | icPush x => exact ⟨_, rfl, (deliver_ic_frame (P := P) (t := .icPush x) rfl rfl).1⟩
  | dfReadStatus | icReset | icEos | icReadStatus => exact ⟨_, rfl, rfl⟩

theorem deliver_in_icFault {t : Token} {s u : State} (hs : s.ic.phase = .fault) (ht : t ≠ .icReset)
    (h : deliver P t s = .next u) : u.ic = s.ic := by
  cases t with
  | icReset => exact absurd rfl ht
  | icPush x => cases h; rw [onIc_ic, icPush_fault hs]
  | icEos =>
    rw [deliver_icEos_notMidRecord fun hmid => ((midRecord_iff s.ic).1 hmid).1 hs] at h
    cases h; rfl
  | icReadStatus => cases h; rfl
  | dfReset | dfStart | dfPush | dfEos | dfReadStatus | dfReadOut => exact (deliver_df_frame h rfl).1

theorem deliverAll_in_dfFault {ts : List Token} {s : State} (hs : s.df.state = .fault) (hts : .dfReset ∉ ts) :
    ∃ u, deliverAll P ts s = .next u ∧ u.df = s.df := by
  induction ts generalizing s with
  | nil => exact ⟨s, rfl, rfl⟩
  | cons t ts ih =>
    obtain ⟨ht, hts⟩ := List.ne_and_not_mem_of_not_mem_cons hts
    obtain ⟨v, hv, hdf⟩ := deliver_in_dfFault (P := P) hs (Ne.symm ht)
    obtain ⟨u, hu, hdf'⟩ := ih (hdf ▸ hs) hts
    exact ⟨u, andThen_eq_next.2 ⟨v, hv, hu⟩, hdf'.trans hdf⟩

theorem deliverAll_in_icFault {ts : List Token} {s u : State} (hs : s.ic.phase = .fault) (hts : .icReset ∉ ts)
    (h : deliverAll P ts s = .next u) : u.ic = s.ic := by
  induction ts generalizing s with
  | nil => cases h; rfl
  | cons t ts ih =>
    obtain ⟨ht, hts⟩ := List.ne_and_not_mem_of_not_mem_cons hts
    obtain ⟨v, hv, hu⟩ := andThen_eq_next.1 h
    have hic := deliver_in_icFault hs (Ne.symm ht) hv
    exact (ih (hic ▸ hs) hts hu).trans hic

/-- Settles O47, by induction on the token sequence in each unit. -/
theorem faultIsSticky : Obligations.FaultIsSticky := fun _ _ _ =>
  ⟨deliverAll_in_dfFault, fun hs hts _ => deliverAll_in_icFault hs hts⟩

end Sys2Proof.Machine
end
